-- ==== Sys2Proof/Word.lean ====
section
/-! DEFINITION. The widths of the CORE's values (rules R4, R10, R15, R60, R62): every value is an unsigned integer
of a stated width, bit 0 least significant. Nothing else stands here. -/

namespace Sys2Proof

/-- An 8-bit value: a general register, a timer, a byte of RAM, the immediate `kk` (rules R10, R18, R24, R62). -/
abbrev Byte := BitVec 8

/-- A 16-bit value: an instruction word, `I`, `PC`, a return address, `ERR.info` (rules R14, R15, R17, R60). -/
abbrev Word := BitVec 16

/-- A 4-bit field: a register index `x` or `y`, or the row count `n` (rule R62). -/
abbrev Nibble := BitVec 4

/-- The 12-bit address field `nnn` (rule R62). -/
abbrev Addr := BitVec 12

end Sys2Proof
end

