-- ==== Sys2Proof/Syntax.lean ====
section
/-! DEFINITION. The instruction set as syntax: one constructor per row of spec/opcode_table.json, in the table's
order, each carrying the fields its format has (rules R62, R63, R66). -/

namespace Sys2Proof

/-- The 33 instruction forms (rule R66). A form carries every field of its format, so the word it came from can be
written again; `shr` and `shl` keep the `y` they may ignore (rule R69). -/
inductive Instr where
  /-- `00E0`, `CLS` (rule R181). -/
  | cls
  /-- `00EE`, `RET` (rule R113). -/
  | ret
  /-- `1nnn`, `JP nnn` (rule R111). -/
  | jp (nnn : Addr)
  /-- `2nnn`, `CALL nnn` (rule R112). -/
  | call (nnn : Addr)
  /-- `3xkk`, `SE Vx, kk` (rule R115). -/
  | seImm (x : Nibble) (kk : Byte)
  /-- `4xkk`, `SNE Vx, kk` (rule R116). -/
  | sneImm (x : Nibble) (kk : Byte)
  /-- `5xy0`, `SE Vx, Vy` (rule R117). -/
  | seReg (x y : Nibble)
  /-- `6xkk`, `LD Vx, kk` (rule R92). -/
  | ldImm (x : Nibble) (kk : Byte)
  /-- `7xkk`, `ADD Vx, kk` (rule R93). -/
  | addImm (x : Nibble) (kk : Byte)
  /-- `8xy0`, `LD Vx, Vy` (rule R94). -/
  | ldReg (x y : Nibble)
  /-- `8xy1`, `OR Vx, Vy` (rule R95). -/
  | orReg (x y : Nibble)
  /-- `8xy2`, `AND Vx, Vy` (rule R96). -/
  | andReg (x y : Nibble)
  /-- `8xy3`, `XOR Vx, Vy` (rule R97). -/
  | xorReg (x y : Nibble)
  /-- `8xy4`, `ADD Vx, Vy` (rule R98). -/
  | addReg (x y : Nibble)
  /-- `8xy5`, `SUB Vx, Vy` (rule R99). -/
  | subReg (x y : Nibble)
  /-- `8xy6`, `SHR Vx` (rule R100). -/
  | shr (x y : Nibble)
  /-- `8xy7`, `SUBN Vx, Vy` (rule R101). -/
  | subnReg (x y : Nibble)
  /-- `8xyE`, `SHL Vx` (rule R102). -/
  | shl (x y : Nibble)
  /-- `9xy0`, `SNE Vx, Vy` (rule R118). -/
  | sneReg (x y : Nibble)
  /-- `Annn`, `LD I, nnn` (rule R131). -/
  | ldI (nnn : Addr)
  /-- `Bnnn`, `JP V0, nnn` (rule R114). -/
  | jpV0 (nnn : Addr)
  /-- `Cxkk`, `RND Vx, kk` (rule R170). -/
  | rnd (x : Nibble) (kk : Byte)
  /-- `Dxyn`, `DRW Vx, Vy, n` (rule R177). -/
  | drw (x y n : Nibble)
  /-- `Ex9E`, `SKP Vx` (rule R161). -/
  | skp (x : Nibble)
  /-- `ExA1`, `SKNP Vx` (rule R162). -/
  | sknp (x : Nibble)
  /-- `Fx07`, `LD Vx, DT` (rule R150). -/
  | ldVxDt (x : Nibble)
  /-- `Fx15`, `LD DT, Vx` (rule R151). -/
  | ldDtVx (x : Nibble)
  /-- `Fx18`, `LD ST, Vx` (rule R152). -/
  | ldStVx (x : Nibble)
  /-- `Fx1E`, `ADD I, Vx` (rule R132). -/
  | addI (x : Nibble)
  /-- `Fx29`, `LD F, Vx` (rule R136). -/
  | ldF (x : Nibble)
  /-- `Fx33`, `LD B, Vx` (rule R135). -/
  | ldB (x : Nibble)
  /-- `Fx55`, `LD [I], Vx` (rule R133). -/
  | stRegs (x : Nibble)
  /-- `Fx65`, `LD Vx, [I]` (rule R134). -/
  | ldRegs (x : Nibble)
deriving DecidableEq, Repr

end Sys2Proof
end

