-- ==== Sys2Proof/WellFormed.lean ====
section
/-! DEFINITION. When an instruction's operands fit its encoding (rules R62, R63): a register index and a row count are
4 bits, a byte immediate 8, an address 12. The fields of `Instr` have exactly these widths, so every instruction is
well formed (rule R63: every field value of a matching word is legal; log 19). The checks themselves are on plain
numbers, so that they can refuse. -/

namespace Sys2Proof

/-- One operand field as a plain number, before it is given a width. -/
inductive OperandField where
  /-- A register index `x` or `y`. -/
  | reg (k : Nat)
  /-- The row count `n` of `Dxyn`. -/
  | rows (n : Nat)
  /-- The byte immediate `kk`. -/
  | byte (v : Nat)
  /-- The address `nnn`. -/
  | addr (a : Nat)
deriving DecidableEq, Repr

/-- The field's value fits the field's bits of the instruction word (rule R62). -/
def OperandField.fits : OperandField → Bool
  | .reg k => k < 16
  | .rows n => n < 16
  | .byte v => v < 256
  | .addr a => a < 4096

/-- The operand fields of an instruction, in the order its pattern writes them (rule R63). -/
def Instr.operands : Instr → List OperandField
  | .cls | .ret => []
  | .jp a | .call a | .ldI a | .jpV0 a => [.addr a.toNat]
  | .seImm x k | .sneImm x k | .ldImm x k | .addImm x k | .rnd x k => [.reg x.toNat, .byte k.toNat]
  | .seReg x y | .ldReg x y | .orReg x y | .andReg x y | .xorReg x y | .addReg x y | .subReg x y
  | .shr x y | .subnReg x y | .shl x y | .sneReg x y => [.reg x.toNat, .reg y.toNat]
  | .drw x y n => [.reg x.toNat, .reg y.toNat, .rows n.toNat]
  | .skp x | .sknp x | .ldVxDt x | .ldDtVx x | .ldStVx x | .addI x | .ldF x | .ldB x | .stRegs x
  | .ldRegs x => [.reg x.toNat]

/-- Every operand field fits. -/
def Instr.wf (i : Instr) : Bool := i.operands.all OperandField.fits

end Sys2Proof
end

