-- ==== Sys2Proof/Decode.lean ====
section
/-! DEFINITION. The decoder and the encoder (rules R60 to R69). The decoder is the opcode map of rule R66 as a table of
masks and match values, total on every word; a word that matches no row is no instruction (rule R67). The encoder
writes the word of an instruction from the same patterns. -/

namespace Sys2Proof

/-- The register index field `x = w[11:8]` (rule R62). -/
def fieldX (w : Word) : Nibble := w.extractLsb' 8 4
/-- The register index field `y = w[7:4]` (rule R62). -/
def fieldY (w : Word) : Nibble := w.extractLsb' 4 4
/-- The row count field `n = w[3:0]` (rule R62). -/
def fieldN (w : Word) : Nibble := w.extractLsb' 0 4
/-- The byte immediate field `kk = w[7:0]` (rule R62). -/
def fieldKK (w : Word) : Byte := w.extractLsb' 0 8
/-- The address field `nnn = w[11:0]` (rule R62). -/
def fieldNNN (w : Word) : Addr := w.extractLsb' 0 12

/-- One row of the opcode map: `w` is this form exactly when `w AND mask = code` (rule R66). -/
structure OpcodeRow where
  mask : Word
  code : Word
  /-- The instruction made of the fields of a matching word. -/
  build : Word → Instr

/-- A row of format `NNN` (rule R63). -/
def rowNNN (code : Word) (mk : Addr → Instr) : OpcodeRow := ⟨0xF000, code, fun w => mk (fieldNNN w)⟩
/-- A row of format `XKK` (rule R63). -/
def rowXKK (code : Word) (mk : Nibble → Byte → Instr) : OpcodeRow :=
  ⟨0xF000, code, fun w => mk (fieldX w) (fieldKK w)⟩
/-- A row of format `XYS` (rule R63). -/
def rowXYS (code : Word) (mk : Nibble → Nibble → Instr) : OpcodeRow :=
  ⟨0xF00F, code, fun w => mk (fieldX w) (fieldY w)⟩
/-- A row of format `XSS` (rule R63). -/
def rowXSS (code : Word) (mk : Nibble → Instr) : OpcodeRow := ⟨0xF0FF, code, fun w => mk (fieldX w)⟩

/-- Rows 1 to 9 of rule R66. -/
def opcodeRows1 : List OpcodeRow :=
  [⟨0xFFFF, 0x00E0, fun _ => .cls⟩, ⟨0xFFFF, 0x00EE, fun _ => .ret⟩,
   rowNNN 0x1000 .jp, rowNNN 0x2000 .call,
   rowXKK 0x3000 .seImm, rowXKK 0x4000 .sneImm, rowXYS 0x5000 .seReg,
   rowXKK 0x6000 .ldImm, rowXKK 0x7000 .addImm]

/-- Rows 10 to 19 of rule R66. -/
def opcodeRows2 : List OpcodeRow :=
  [rowXYS 0x8000 .ldReg, rowXYS 0x8001 .orReg, rowXYS 0x8002 .andReg, rowXYS 0x8003 .xorReg,
   rowXYS 0x8004 .addReg, rowXYS 0x8005 .subReg, rowXYS 0x8006 .shr, rowXYS 0x8007 .subnReg,
   rowXYS 0x800E .shl, rowXYS 0x9000 .sneReg]

/-- Rows 20 to 33 of rule R66. -/
def opcodeRows3 : List OpcodeRow :=
  [rowNNN 0xA000 .ldI, rowNNN 0xB000 .jpV0, rowXKK 0xC000 .rnd,
   ⟨0xF000, 0xD000, fun w => .drw (fieldX w) (fieldY w) (fieldN w)⟩,
   rowXSS 0xE09E .skp, rowXSS 0xE0A1 .sknp,
   rowXSS 0xF007 .ldVxDt, rowXSS 0xF015 .ldDtVx, rowXSS 0xF018 .ldStVx, rowXSS 0xF01E .addI,
   rowXSS 0xF029 .ldF, rowXSS 0xF033 .ldB, rowXSS 0xF055 .stRegs, rowXSS 0xF065 .ldRegs]

/-- The opcode map (rule R66). -/
def opcodeRows : List OpcodeRow := opcodeRows1 ++ opcodeRows2 ++ opcodeRows3

/-- The word has the row's fixed bits (rule R66). -/
def OpcodeRow.admits (r : OpcodeRow) (w : Word) : Bool := w &&& r.mask == r.code

/-- DECODE (rules R65, R83): the instruction a word is, or none where no form matches (rule R67). -/
def decode (w : Word) : Option Instr := (opcodeRows.find? (·.admits w)).map (·.build w)

/-- The word made of two bytes, the first the high byte (rules R43, R61). -/
def wordOfBytes (hi lo : Byte) : Word := hi.setWidth 16 <<< 8 ||| lo.setWidth 16

/-- The two bytes of a word as memory holds them, the high byte first (rule R43). -/
def bytesOfWord (w : Word) : List Byte := [w.extractLsb' 8 8, w.extractLsb' 0 8]

/-- Decode the instruction at the front of a list of bytes, with the bytes that follow it: every instruction is two
bytes (rule R60). -/
def decodeBytes : List Byte → Option (Instr × List Byte)
  | hi :: lo :: rest => (decode (wordOfBytes hi lo)).map (·, rest)
  | _ => none

/-- A word of format `NNN` (rule R63): op, `nnn`. -/
def packNNN (op : Nibble) (nnn : Addr) : Word := op.setWidth 16 <<< 12 ||| nnn.setWidth 16

/-- A word of format `XKK` or `XSS` (rule R63): op, `x`, and the low byte. -/
def packXKK (op x : Nibble) (kk : Byte) : Word := op.setWidth 16 <<< 12 ||| x.setWidth 16 <<< 8 ||| kk.setWidth 16

/-- A word of format `XYS` or `XYN` (rule R63): op, `x`, `y`, and the low nibble. -/
def packXYN (op x y n : Nibble) : Word :=
  op.setWidth 16 <<< 12 ||| x.setWidth 16 <<< 8 ||| y.setWidth 16 <<< 4 ||| n.setWidth 16

/-- The word of an instruction (rules R63, R66). -/
def encode : Instr → Word
  | .cls => 0x00E0
  | .ret => 0x00EE
  | .jp nnn => packNNN 0x1 nnn
  | .call nnn => packNNN 0x2 nnn
  | .seImm x kk => packXKK 0x3 x kk
  | .sneImm x kk => packXKK 0x4 x kk
  | .seReg x y => packXYN 0x5 x y 0x0
  | .ldImm x kk => packXKK 0x6 x kk
  | .addImm x kk => packXKK 0x7 x kk
  | .ldReg x y => packXYN 0x8 x y 0x0
  | .orReg x y => packXYN 0x8 x y 0x1
  | .andReg x y => packXYN 0x8 x y 0x2
  | .xorReg x y => packXYN 0x8 x y 0x3
  | .addReg x y => packXYN 0x8 x y 0x4
  | .subReg x y => packXYN 0x8 x y 0x5
  | .shr x y => packXYN 0x8 x y 0x6
  | .subnReg x y => packXYN 0x8 x y 0x7
  | .shl x y => packXYN 0x8 x y 0xE
  | .sneReg x y => packXYN 0x9 x y 0x0
  | .ldI nnn => packNNN 0xA nnn
  | .jpV0 nnn => packNNN 0xB nnn
  | .rnd x kk => packXKK 0xC x kk
  | .drw x y n => packXYN 0xD x y n
  | .skp x => packXKK 0xE x 0x9E
  | .sknp x => packXKK 0xE x 0xA1
  | .ldVxDt x => packXKK 0xF x 0x07
  | .ldDtVx x => packXKK 0xF x 0x15
  | .ldStVx x => packXKK 0xF x 0x18
  | .addI x => packXKK 0xF x 0x1E
  | .ldF x => packXKK 0xF x 0x29
  | .ldB x => packXKK 0xF x 0x33
  | .stRegs x => packXKK 0xF x 0x55
  | .ldRegs x => packXKK 0xF x 0x65

/-- The row of the opcode map an instruction belongs to, as its mask and match value (rule R66). -/
def Instr.opcode : Instr → Word × Word
  | .cls => (0xFFFF, 0x00E0)
  | .ret => (0xFFFF, 0x00EE)
  | .jp _ => (0xF000, 0x1000)
  | .call _ => (0xF000, 0x2000)
  | .seImm _ _ => (0xF000, 0x3000)
  | .sneImm _ _ => (0xF000, 0x4000)
  | .seReg _ _ => (0xF00F, 0x5000)
  | .ldImm _ _ => (0xF000, 0x6000)
  | .addImm _ _ => (0xF000, 0x7000)
  | .ldReg _ _ => (0xF00F, 0x8000)
  | .orReg _ _ => (0xF00F, 0x8001)
  | .andReg _ _ => (0xF00F, 0x8002)
  | .xorReg _ _ => (0xF00F, 0x8003)
  | .addReg _ _ => (0xF00F, 0x8004)
  | .subReg _ _ => (0xF00F, 0x8005)
  | .shr _ _ => (0xF00F, 0x8006)
  | .subnReg _ _ => (0xF00F, 0x8007)
  | .shl _ _ => (0xF00F, 0x800E)
  | .sneReg _ _ => (0xF00F, 0x9000)
  | .ldI _ => (0xF000, 0xA000)
  | .jpV0 _ => (0xF000, 0xB000)
  | .rnd _ _ => (0xF000, 0xC000)
  | .drw _ _ _ => (0xF000, 0xD000)
  | .skp _ => (0xF0FF, 0xE09E)
  | .sknp _ => (0xF0FF, 0xE0A1)
  | .ldVxDt _ => (0xF0FF, 0xF007)
  | .ldDtVx _ => (0xF0FF, 0xF015)
  | .ldStVx _ => (0xF0FF, 0xF018)
  | .addI _ => (0xF0FF, 0xF01E)
  | .ldF _ => (0xF0FF, 0xF029)
  | .ldB _ => (0xF0FF, 0xF033)
  | .stRegs _ => (0xF0FF, 0xF055)
  | .ldRegs _ => (0xF0FF, 0xF065)

/-- The word whose bits are the low `nbits` bits of `w`, every bit above them 0: an instruction of the opcode table is
one 16-bit word, its bit 0 the table's bit 0. -/
def tableWord (nbits w : Nat) : Word := BitVec.ofNat 16 (w % 2 ^ nbits)

/-- The instruction the decoder reads from the bytes of a table word, the high byte at the lower address. -/
def decodeTableWord (nbits w : Nat) : Option Instr := (decodeBytes (bytesOfWord (tableWord nbits w))).map (·.1)

end Sys2Proof
end

