-- ==== Sys2Proof/Config.lean ====
section
/-! DEFINITION. The parameters of the model (rule R3) at the values the spec uses, and the one free value: the random
byte. The parameters the source leaves open (display size and place, end of the program area, stack limit, shift source,
font bytes) stand at the spec's defaults (log 5). -/

namespace Sys2Proof.Config

/-- `MEM_SIZE`: bytes of RAM (rules R3, R24). -/
def memSize : Nat := 4096
/-- `ENTRY`: where the program area starts and `PC` is after reset (rules R3, R30). -/
def entry : Nat := 0x200
/-- `FONT_BASE` (rules R3, R41). -/
def fontBase : Nat := 0x000
/-- Bytes per glyph of the font table (rules R3, R46). -/
def glyphBytes : Nat := 5
/-- `DISPLAY_W` in pixels. DESIGN CHOICE of the spec (D1), log 5. -/
def displayW : Nat := 64
/-- `DISPLAY_H` in pixels. DESIGN CHOICE of the spec (D1), log 5. -/
def displayH : Nat := 32
/-- `ROWB = DISPLAY_W / 8`: bytes per framebuffer row (rules R5, R175). -/
def rowBytes : Nat := displayW / 8
/-- `FB_BYTES = DISPLAY_W * DISPLAY_H / 8` (rule R3). -/
def fbBytes : Nat := displayW * displayH / 8
/-- `DISPLAY_BASE`. DESIGN CHOICE of the spec (D2), log 5. -/
def displayBase : Nat := 0xF00
/-- `PROG_END`, the exclusive end of the program area. DESIGN CHOICE of the spec (D3), log 5. -/
def progEnd : Nat := 0xF00
/-- `STACK_LIMIT`: most pending calls. DESIGN CHOICE of the spec (D4), log 5. -/
def stackLimit : Nat := 16

/-- The two values of the parameter `SHIFT_SOURCE` (rules R3, R100, R102). -/
inductive ShiftSource where
  /-- The shifts read `Vx`. -/
  | vx
  /-- The shifts read `Vy`. -/
  | vy
deriving DecidableEq, Repr

/-- `SHIFT_SOURCE`. DESIGN CHOICE of the spec (D11), log 5. -/
def shiftSource : ShiftSource := .vx

/-- What a byte of RAM holds after reset and so what an address that memory does not list reads as (rule R30). -/
def ramReset : Byte := 0x00

/-- `FONT`: 16 glyphs of 5 bytes, glyph 0 first (rule R46). DESIGN CHOICE of the spec (D18), log 5. -/
def font : List Byte :=
  [0xF0, 0x90, 0x90, 0x90, 0xF0] ++ [0x20, 0x60, 0x20, 0x20, 0x70] ++
  [0xF0, 0x10, 0xF0, 0x80, 0xF0] ++ [0xF0, 0x10, 0xF0, 0x10, 0xF0] ++
  [0x90, 0x90, 0xF0, 0x10, 0x10] ++ [0xF0, 0x80, 0xF0, 0x10, 0xF0] ++
  [0xF0, 0x80, 0xF0, 0x90, 0xF0] ++ [0xF0, 0x10, 0x20, 0x40, 0x40] ++
  [0xF0, 0x90, 0xF0, 0x90, 0xF0] ++ [0xF0, 0x90, 0xF0, 0x10, 0xF0] ++
  [0xF0, 0x90, 0xF0, 0x90, 0x90] ++ [0xE0, 0x90, 0xE0, 0x90, 0xE0] ++
  [0xF0, 0x80, 0x80, 0x80, 0xF0] ++ [0xE0, 0x90, 0x90, 0x90, 0xE0] ++
  [0xF0, 0x80, 0xF0, 0x80, 0xF0] ++ [0xF0, 0x80, 0xF0, 0x80, 0x80]

/-- The constraints rule R3 puts on the parameters. -/
def ok : Bool :=
  displayW % 8 == 0 && fbBytes == displayW * displayH / 8 && decide (entry ≤ progEnd) &&
  decide (progEnd ≤ displayBase) && decide (displayBase + fbBytes ≤ memSize) &&
  decide (fontBase + font.length ≤ entry) && decide (1 ≤ stackLimit) && font.length == 16 * glyphBytes

/-- The random byte where a step is not handed one (rules R170, R204), at the `k`-th use. A FREE VALUE: no law, no body,
so nothing can be proved of it that does not hold of every byte (log 4). -/
opaque randomByte : Nat → Byte

end Sys2Proof.Config
end

