-- ==== Sys2Proof/Machine/State.lean ====
section
/-! DEFINITION. The architectural state of the CORE (rules R10 to R24), its faults (rule R220), what the model refuses,
and the state after reset (rule R30). The operations on it are in Machine/Ops.lean. -/

namespace Sys2Proof.Machine

/-- RAM (rule R24): the bytes that differ from their reset value, as (address, byte) pairs at strictly rising
addresses. -/
abbrev Memory := List Host.Cell

/-- The canonical form: addresses strictly rising and inside the address space, and no byte listed that an unlisted
address reads as. -/
def Memory.wf : Memory → Bool
  | [] => true
  | (a, b) :: m => a < Config.memSize && b != Config.ramReset && m.all (fun c => a < c.1) && Memory.wf m

/-- `RUN` (rule R22). -/
inductive RunState where
  /-- Reset done, no ROM loaded. -/
  | empty
  /-- A ROM is loaded, no fault so far. -/
  | ready
  /-- A STEP raised a fault. -/
  | halted
deriving DecidableEq, Repr

/-- `ERR`, the fault record (rule R23). -/
structure FaultRecord where
  /-- The code of the fault that halted the CORE, 0 for none (rule R220). -/
  code : BitVec 3
  /-- The value that fault records (rule R224). -/
  info : Word
deriving DecidableEq, Repr

/-- The seven faults of rule R220. Those a STEP raises are TAKEN (rule R223: `ERR` is written, `RUN` becomes `HALTED`),
so `step` answers a next state and never `Outcome.fault`; the names say which fault is taken (log 1). -/
inductive Fault where
  /-- Raised by LOAD alone when the ROM does not fit (rule R253); it halts nothing and changes nothing. Safe. -/
  | memoryFull
  /-- Raised by `2nnn` on a full stack (rule R112). Safe: the source's stack has no stated bound. -/
  | stackOverflow
  /-- Raised by `00EE` on an empty stack (rule R113). Safe. -/
  | stackUnderflow
  /-- Raised by a step whose word matches no form (rules R67, R86). Safe. -/
  | unknownOpcode
  /-- Raised by `Fx29` when `Vx >= 16` (rule R136). Safe. -/
  | undefinedHexadecimal
  /-- Raised by `Ex9E` and `ExA1` when `Vx > 15` (rule R160). Safe. -/
  | wrongKey
  /-- Raised by FETCH when `PC > 0xFFE` and by `Fx55`, `Fx65`, `Fx33`, `Dxyn` whose access passes `0xFFF`
  (rules R42, R82). Safe. -/
  | addressOutOfRange
deriving DecidableEq, Repr

/-- What the model gives no transition. -/
inductive Refusal where
  /-- Answered by `exec`'s arm of an instruction that has no meaning yet. Safe. No arm answers it. -/
  | notModelled (mnemonic : String)
  /-- Answered by `transact` for a LOAD when `RUN` is not `EMPTY`, which the host must not request (rules R202, R208).
  Safe. No step answers it. -/
  | loadNotEmpty
deriving DecidableEq, Repr

/-- The machine's state: every piece the spec names (rules R10 to R24), and `draws`, the model's own. -/
structure State where
  /-- `V0` to `VF` (rule R10). -/
  v : Vector Byte 16
  /-- The address register `I` (rule R14). -/
  i : Word
  /-- The program counter `PC` (rule R15). -/
  pc : Word
  /-- The call stack, oldest return address first; its length is `SP` (rules R17, R21). -/
  stack : List Word
  /-- The delay timer `DT` (rule R18). -/
  dt : Byte
  /-- The sound timer `ST` (rule R19). -/
  st : Byte
  /-- `KEY[0]` to `KEY[15]`, true for pressed (rule R20). -/
  key : Vector Bool 16
  /-- RAM (rule R24). -/
  mem : Memory
  /-- `RUN` (rule R22). -/
  run : RunState
  /-- `ERR` (rule R23). -/
  err : FaultRecord
  /-- How many free values of `Config.randomByte` the host's `step`, whose form carries no random byte, has put in its
  place: the model's own field, no state of the random source. No transaction reads or changes it (log 4). -/
  draws : Nat
deriving DecidableEq, Repr

/-- The state after reset (rules R30, R250): every value is the spec's but `draws`, which is the model's own
(DESIGN CHOICE 0, log 4). -/
def State.reset : State where
  v := Vector.replicate 16 0x00
  i := 0x0000
  pc := BitVec.ofNat 16 Config.entry
  stack := []
  dt := 0x00
  st := 0x00
  key := Vector.replicate 16 false
  mem := []
  run := .empty
  err := ⟨0, 0x0000⟩
  draws := 0

end Sys2Proof.Machine
end

