-- ==== Sys2Proof/Machine/Ops.lean ====
section
/-! DEFINITION. The named operations over memory and registers (rule R5), the phases of a step that come before EXECUTE
(rules R81 to R85), and raising a fault (rule R223). There is no return from a fault (rule R227), so none stands beside
it: only RESET leaves `HALTED`. -/

namespace Sys2Proof.Machine

/-! ### Memory (rules R5, R40 to R45) -/

/-- The byte at an address: `Mem[a]`. An address that is not listed holds its reset value. -/
def Memory.read : Memory → Nat → Byte
  | [], _ => Config.ramReset
  | (k, b) :: m, a => if k = a then b else Memory.read m a

/-- Drop whatever is listed at an address. -/
def Memory.erase (m : Memory) (a : Nat) : Memory := m.filter (fun c => c.1 != a)

/-- List a byte at an address that is not listed, keeping addresses rising. -/
def Memory.insert : Memory → Nat → Byte → Memory
  | [], a, b => [(a, b)]
  | c :: m, a, b => if c.1 < a then c :: Memory.insert m a b else (a, b) :: c :: m

/-- `Mem[a] <- b` (rule R45: a write changes only the byte written). The reset value is kept by not being listed. -/
def Memory.write (m : Memory) (a : Nat) (b : Byte) : Memory :=
  if b = Config.ramReset then m.erase a else (m.erase a).insert a b

/-- `MemRead(addr, n)` (rule R5): `n` bytes at ascending addresses. -/
def Memory.readBytes (m : Memory) (addr n : Nat) : List Byte := (List.range n).map (fun k => m.read (addr + k))

/-- `MemWrite(addr, n, v)` (rule R5): the bytes of `v` at ascending addresses, the first at `addr`. -/
def Memory.writeBytes : Memory → Nat → List Byte → Memory
  | m, _, [] => m
  | m, a, b :: bs => Memory.writeBytes (m.write a b) (a + 1) bs

/-- An access of `n` bytes at `addr` is in range (rule R42): no wrap-around, and no bytes are always in range. -/
def inRange (addr n : Nat) : Bool := n == 0 || decide (addr + n ≤ Config.memSize)

/-! ### Registers, stack, keys (rules R10, R14 to R20) -/

/-- `V[r]`. -/
def State.reg (s : State) (r : Nibble) : Byte := s.v[r.toNat]'r.isLt

/-- `V[r] <- b`. -/
def State.setReg (s : State) (r : Nibble) (b : Byte) : State := { s with v := s.v.set r.toNat b r.isLt }

/-- `I <- a`. -/
def State.setI (s : State) (a : Word) : State := { s with i := a }

/-- `PC <- a`. -/
def State.setPc (s : State) (a : Word) : State := { s with pc := a }

/-- `DT <- b`. -/
def State.setDt (s : State) (b : Byte) : State := { s with dt := b }

/-- `ST <- b`. -/
def State.setSt (s : State) (b : Byte) : State := { s with st := b }

/-- `MemWrite(addr, n, bs)` on the state. -/
def State.store (s : State) (addr : Nat) (bs : List Byte) : State := { s with mem := s.mem.writeBytes addr bs }

/-- `SP`, the stack depth (rule R21). -/
def State.sp (s : State) : Nat := s.stack.length

/-- `push(a)` (rule R5). -/
def State.push (s : State) (a : Word) : State := { s with stack := s.stack ++ [a] }

/-- The stack without its newest entry: what `pop()` leaves (rule R5). -/
def State.dropNewest (s : State) : State := { s with stack := s.stack.dropLast }

/-- `KEY[k]` (rule R20). -/
def State.keyAt (s : State) (k : Nibble) : Bool := s.key[k.toNat]'k.isLt

/-- Take the next free byte in place of the one a STEP carries (rule R204): the byte, and the state after it (log 4). -/
def State.draw (s : State) : Byte × State := (Config.randomByte s.draws, { s with draws := s.draws + 1 })

/-! ### Faults (rules R220 to R227) -/

/-- The code of a fault (rule R220). -/
def Fault.code : Fault → BitVec 3
  | .memoryFull => 1
  | .stackOverflow => 2
  | .stackUnderflow => 3
  | .unknownOpcode => 4
  | .undefinedHexadecimal => 5
  | .wrongKey => 6
  | .addressOutOfRange => 7

/-- The state a fault leaves (rule R223): `ERR` written, `RUN` `HALTED`, nothing else changed. -/
def State.halt (s : State) (f : Fault) (info : Word) : State := { s with run := .halted, err := ⟨f.code, info⟩ }

/-- `raise f(info)` (rules R5, R223): the fault is taken, and the step ends in the halted state. -/
def raise (f : Fault) (info : Word) (s : State) : Host.Outcome State Fault Refusal := .next (s.halt f info)

/-- Raise a fault in EXECUTE: the value recorded is the instruction's word (rule R224; log 8). -/
def raiseIn (i : Instr) (f : Fault) (s : State) : Host.Outcome State Fault Refusal := raise f (encode i) s

/-! ### The phases before EXECUTE (rules R81 to R85) -/

/-- What the start of a step finds. -/
inductive Fetched where
  /-- `RUN = HALTED`: there is no fetch (rule R225). -/
  | idle
  /-- `PC > 0xFFE`: the two bytes are not in RAM (rule R82). -/
  | beyond
  /-- The word at `PC` (rules R43, R82). -/
  | word (w : Word)
deriving DecidableEq, Repr

/-- The word `Mem[PC] || Mem[PC + 1]` (rules R43, R61). -/
def State.wordAtPc (s : State) : Word := wordOfBytes (s.mem.read s.pc.toNat) (s.mem.read (s.pc.toNat + 1))

/-- FETCH (rules R81, R82). -/
def State.fetch (s : State) : Fetched :=
  if s.run = .halted then .idle
  else if inRange s.pc.toNat 2 then .word s.wordAtPc
  else .beyond

/-- A timer after one TICK (rule R85): down by one, or left at 0. -/
def tickDown (b : Byte) : Byte := if b = 0 then 0 else b - 1

/-- ADVANCE (rule R84): `PC <- a + 2`. -/
def State.advance (s : State) : State := { s with pc := s.pc + 2 }

/-- TICK (rule R85). -/
def State.tick (s : State) : State := { s with dt := tickDown s.dt, st := tickDown s.st }

/-- The state EXECUTE sees (rule R88). -/
def State.toExecute (s : State) : State := s.advance.tick

/-- A step while `HALTED` changes nothing (rule R225; log 2). -/
def stepHalted (s : State) : Host.Outcome State Fault Refusal := .next s

/-- A step whose FETCH is out of range (rule R82): `ERR.info` is `PC`, and nothing else has changed. -/
def stepBeyond (s : State) : Host.Outcome State Fault Refusal := raise .addressOutOfRange s.pc s

/-- A step whose word matches no form (rules R67, R86): `PC` has advanced and the timers have ticked. -/
def stepUnknown (w : Word) (s : State) : Host.Outcome State Fault Refusal := raise .unknownOpcode w s.toExecute

/-- One STEP (rules R80 to R86) around an EXECUTE phase: FETCH, DECODE, ADVANCE and TICK, and then `execute`. -/
def stepBy (execute : Instr → State → Host.Outcome State Fault Refusal) (s : State) :
    Host.Outcome State Fault Refusal :=
  match s.fetch with
  | .idle => stepHalted s
  | .beyond => stepBeyond s
  | .word w =>
    match decode w with
    | some i => execute i s.toExecute
    | none => stepUnknown w s

/-! ### Outputs (rule R211) -/

/-- The port `halted`: `RUN = HALTED`. -/
def State.halted (s : State) : Bool := s.run = .halted

/-- The port `fault_code`. -/
def State.faultCode (s : State) : BitVec 3 := s.err.code

/-- The port `fault_info`. -/
def State.faultInfo (s : State) : Word := s.err.info

end Sys2Proof.Machine
end

