-- ==== Sys2Proof/Machine/Operands.lean ====
section
/-! DEFINITION. The operand forms (rules R5, R64, R130): explicit truncation, zero extension, the shifted operand, the
register range `V0` to `Vx`, addresses through `I`, and the decimal digits of a byte. -/

namespace Sys2Proof.Machine

/-- `trunc8(n)`: the low 8 bits of a number computed exactly (rules R5, R90). -/
def trunc8 (n : Nat) : Byte := BitVec.ofNat 8 n

/-- `trunc16(n)`: the low 16 bits of a number computed exactly (rule R5). -/
def trunc16 (n : Nat) : Word := BitVec.ofNat 16 n

/-- `zext_16(nnn)` (rule R64). -/
def zextAddr (a : Addr) : Word := a.setWidth 16

/-- `zext_16(b)` of a byte (rules R114, R132). -/
def zextByte (b : Byte) : Word := b.setWidth 16

/-- The operand of `8xy6` and `8xyE` (rules R100, R102): `Vx` or `Vy`, by the parameter `SHIFT_SOURCE`. -/
def State.shiftOperand (s : State) (src : Config.ShiftSource) (x y : Nibble) : Byte :=
  match src with
  | .vx => s.reg x
  | .vy => s.reg y

/-- The address held in `I`, as the plain number accesses are checked on (rule R130: no reduction). -/
def State.base (s : State) : Nat := s.i.toNat

/-- How many registers the range `V0` to `Vx` has (rules R133, R134). -/
def rangeSize (x : Nibble) : Nat := x.toNat + 1

/-- `V0` up to `Vx`, `V0` first: what `Fx55` stores (rule R133). -/
def State.regRange (s : State) (x : Nibble) : List Byte := s.v.toList.take (rangeSize x)

/-- `V[k] <- Mem[addr + k]` for `k` from 0 to `x`; the other registers keep their values (rule R134). -/
def State.loadRange (s : State) (x : Nibble) (addr : Nat) : State :=
  { s with v := Vector.ofFn (fun k : Fin 16 => if k.val < rangeSize x then s.mem.read (addr + k.val) else s.v[k.val]) }

/-- The three decimal digits of a byte, hundreds first, one digit a byte (rule R135). -/
def decimalDigits (b : Byte) : List Byte :=
  [trunc8 (b.toNat / 100), trunc8 (b.toNat / 10 % 10), trunc8 (b.toNat % 10)]

/-- The address of the glyph of a hexadecimal digit (rules R46, R136). -/
def glyphAddress (d : Nat) : Word := BitVec.ofNat 16 (Config.fontBase + Config.glyphBytes * d)

end Sys2Proof.Machine
end

