-- ==== Sys2Proof/Machine/Flags.lean ====
section
/-! DEFINITION. The flag register `VF` (rules R12, R13): the values the six flag-writing instructions put in it, and the
order of the two writes. -/

namespace Sys2Proof.Machine

/-- `VF` is general register 15 (rule R12). -/
def vf : Nibble := 0xF

/-- A flag is exactly `0x00` or `0x01` (rule R12). -/
def flagByte (p : Bool) : Byte := if p then 0x01 else 0x00

/-- The carry of `a + b` (rule R98). -/
def carryFlag (a b : Byte) : Byte := flagByte (decide (255 < a.toNat + b.toNat))

/-- The flag of `a - b`: 1 when no borrow occurs, equality included (rules R99, R101). -/
def noBorrowFlag (a b : Byte) : Byte := flagByte (decide (b.toNat ≤ a.toNat))

/-- The bit a right shift moves out (rule R100). -/
def shiftedOutRight (b : Byte) : Byte := flagByte (b.getLsbD 0)

/-- The bit a left shift moves out (rule R102). -/
def shiftedOutLeft (b : Byte) : Byte := flagByte (b.getLsbD 7)

/-- Write the result to `Vx`, then the flag to `VF` (rules R13, R91): with `x = 0xF` the flag is what remains. -/
def State.setResultAndFlag (s : State) (x : Nibble) (result flag : Byte) : State := (s.setReg x result).setReg vf flag

end Sys2Proof.Machine
end

