-- ==== Sys2Proof/Machine/Alu.lean ====
section
/-! DEFINITION. Register load and arithmetic instructions (rules R90 to R102): their EXECUTE phase. None raises a
fault. -/

namespace Sys2Proof.Machine

/-- `6xkk`, `LD Vx, kk` (rule R92). -/
def execLdImm (x : Nibble) (kk : Byte) (s : State) : Host.Outcome State Fault Refusal := .next (s.setReg x kk)

/-- `7xkk`, `ADD Vx, kk` (rule R93): no flag. -/
def execAddImm (x : Nibble) (kk : Byte) (s : State) : Host.Outcome State Fault Refusal :=
  .next (s.setReg x (trunc8 ((s.reg x).toNat + kk.toNat)))

/-- `8xy0`, `LD Vx, Vy` (rule R94). -/
def execLdReg (x y : Nibble) (s : State) : Host.Outcome State Fault Refusal := .next (s.setReg x (s.reg y))

/-- `8xy1`, `OR Vx, Vy` (rule R95): `VF` is not a flag here (rule R91). -/
def execOrReg (x y : Nibble) (s : State) : Host.Outcome State Fault Refusal := .next (s.setReg x (s.reg x ||| s.reg y))

/-- `8xy2`, `AND Vx, Vy` (rule R96). -/
def execAndReg (x y : Nibble) (s : State) : Host.Outcome State Fault Refusal := .next (s.setReg x (s.reg x &&& s.reg y))

/-- `8xy3`, `XOR Vx, Vy` (rule R97). -/
def execXorReg (x y : Nibble) (s : State) : Host.Outcome State Fault Refusal := .next (s.setReg x (s.reg x ^^^ s.reg y))

/-- `8xy4`, `ADD Vx, Vy` (rule R98). -/
def execAddReg (x y : Nibble) (s : State) : Host.Outcome State Fault Refusal :=
  let a := s.reg x
  let b := s.reg y
  .next (s.setResultAndFlag x (trunc8 (a.toNat + b.toNat)) (carryFlag a b))

/-- `8xy5`, `SUB Vx, Vy` (rule R99): `Vx - Vy`. -/
def execSubReg (x y : Nibble) (s : State) : Host.Outcome State Fault Refusal :=
  let a := s.reg x
  let b := s.reg y
  .next (s.setResultAndFlag x (trunc8 (a.toNat + 256 - b.toNat)) (noBorrowFlag a b))

/-- `8xy6`, `SHR Vx` for either value of `SHIFT_SOURCE` (rule R100). -/
def shiftRight (src : Config.ShiftSource) (x y : Nibble) (s : State) : State :=
  let b := s.shiftOperand src x y
  s.setResultAndFlag x (trunc8 (b.toNat / 2)) (shiftedOutRight b)

/-- `8xy6`, `SHR Vx` (rule R100). -/
def execShr (x y : Nibble) (s : State) : Host.Outcome State Fault Refusal := .next (shiftRight Config.shiftSource x y s)

/-- `8xy7`, `SUBN Vx, Vy` (rule R101): `Vy - Vx`. -/
def execSubnReg (x y : Nibble) (s : State) : Host.Outcome State Fault Refusal :=
  let a := s.reg x
  let b := s.reg y
  .next (s.setResultAndFlag x (trunc8 (b.toNat + 256 - a.toNat)) (noBorrowFlag b a))

/-- `8xyE`, `SHL Vx` for either value of `SHIFT_SOURCE` (rule R102). -/
def shiftLeft (src : Config.ShiftSource) (x y : Nibble) (s : State) : State :=
  let b := s.shiftOperand src x y
  s.setResultAndFlag x (trunc8 (b.toNat * 2)) (shiftedOutLeft b)

/-- `8xyE`, `SHL Vx` (rule R102). -/
def execShl (x y : Nibble) (s : State) : Host.Outcome State Fault Refusal := .next (shiftLeft Config.shiftSource x y s)

end Sys2Proof.Machine
end

