-- ==== Sys2Proof/Machine/Control.lean ====
section
/-! DEFINITION. Control-flow instructions (rules R110 to R118): their EXECUTE phase, in which `PC` is already the
address of the next instruction (rule R84). No target is checked when it is written (rule R110). -/

namespace Sys2Proof.Machine

/-- A conditional skip (rule R110): exactly one instruction, `PC <- PC + 2`, when the condition holds. -/
def skipIf (c : Bool) (s : State) : State := if c then s.setPc (s.pc + 2) else s

/-- `1nnn`, `JP nnn` (rule R111). -/
def execJp (nnn : Addr) (s : State) : Host.Outcome State Fault Refusal := .next (s.setPc (zextAddr nnn))

/-- `2nnn`, `CALL nnn` (rule R112): the return address is `PC`, already advanced. -/
def execCall (nnn : Addr) (s : State) : Host.Outcome State Fault Refusal :=
  if Config.stackLimit ≤ s.sp then raiseIn (.call nnn) .stackOverflow s
  else .next ((s.push s.pc).setPc (zextAddr nnn))

/-- `00EE`, `RET` (rule R113). -/
def execRet (s : State) : Host.Outcome State Fault Refusal :=
  match s.stack.getLast? with
  | none => raiseIn .ret .stackUnderflow s
  | some a => .next (s.dropNewest.setPc a)

/-- `Bnnn`, `JP V0, nnn` (rule R114): not reduced modulo 4096. -/
def execJpV0 (nnn : Addr) (s : State) : Host.Outcome State Fault Refusal :=
  .next (s.setPc (zextAddr nnn + zextByte (s.reg 0x0)))

/-- `3xkk`, `SE Vx, kk` (rule R115). -/
def execSeImm (x : Nibble) (kk : Byte) (s : State) : Host.Outcome State Fault Refusal := .next (skipIf (s.reg x == kk) s)

/-- `4xkk`, `SNE Vx, kk` (rule R116). -/
def execSneImm (x : Nibble) (kk : Byte) (s : State) : Host.Outcome State Fault Refusal :=
  .next (skipIf (s.reg x != kk) s)

/-- `5xy0`, `SE Vx, Vy` (rule R117). -/
def execSeReg (x y : Nibble) (s : State) : Host.Outcome State Fault Refusal := .next (skipIf (s.reg x == s.reg y) s)

/-- `9xy0`, `SNE Vx, Vy` (rule R118). -/
def execSneReg (x y : Nibble) (s : State) : Host.Outcome State Fault Refusal := .next (skipIf (s.reg x != s.reg y) s)

end Sys2Proof.Machine
end

