-- ==== Sys2Proof/Machine/Display.lean ====
section
/-! DEFINITION. The display engine (rules R175 to R182): the framebuffer's layout, the XOR blit with collision and
clipping, and the two display instructions' EXECUTE phase. -/

namespace Sys2Proof.Machine

/-- The byte of the framebuffer that holds the pixel in row `r` and column `c` (rule R175). -/
def fbIndex (r c : Nat) : Nat := r * Config.rowBytes + c / 8

/-- The bit of that byte, the leftmost pixel the most significant (rule R175). -/
def fbBit (c : Nat) : Nat := 7 - c % 8

/-- The pixel in row `r` and column `c` of a framebuffer (rule R175). -/
def pixelOf (fb : List Byte) (r c : Nat) : Bool := (fb.getD (fbIndex r c) 0).getLsbD (fbBit c)

/-- The pixel in column `j` of a sprite row, 0 the left (rule R176). -/
def spriteBit (b : Byte) (j : Nat) : Bool := b.getLsbD (7 - j)

/-- The working copy of the framebuffer and the collision seen so far, inside one draw (rules R25, R177). -/
structure Canvas where
  fb : List Byte
  hit : Bool
deriving DecidableEq, Repr

/-- Draw one set sprite pixel at row `r`, column `c` (rule R177): off the screen it is dropped; on it the framebuffer's
pixel is turned over, and turning a set pixel off is a collision. -/
def Canvas.plot (cv : Canvas) (r c : Nat) : Canvas :=
  if r < Config.displayH ∧ c < Config.displayW then
    { fb := cv.fb.set (fbIndex r c) (cv.fb.getD (fbIndex r c) 0 ^^^ (1#8 <<< fbBit c)),
      hit := cv.hit || pixelOf cv.fb r c }
  else cv

/-- Draw the columns of one sprite row at screen row `r` (the inner loop of rule R177). -/
def Canvas.plotRow (cv : Canvas) (x0 r : Nat) (b : Byte) : Canvas :=
  (List.range 8).foldl (fun cv j => if spriteBit b j then cv.plot r (x0 + j) else cv) cv

/-- Draw the rows of a sprite, the first at screen row `y0` (the outer loop of rule R177). -/
def Canvas.plotRows (cv : Canvas) (x0 : Nat) : (y0 : Nat) → List Byte → Canvas
  | _, [] => cv
  | y0, b :: bs => (cv.plotRow x0 y0 b).plotRows x0 (y0 + 1) bs

/-- The framebuffer: the bytes of the display region (rules R47, R175). -/
def State.framebuffer (s : State) : List Byte := s.mem.readBytes Config.displayBase Config.fbBytes

/-- Write the whole display region (rules R177, R181). -/
def State.commit (s : State) (fb : List Byte) : State := s.store Config.displayBase fb

/-- The sprite of `n` rows at `I`, from RAM as it is before the draw (rules R176, R182). -/
def State.sprite (s : State) (n : Nibble) : List Byte := s.mem.readBytes s.base n.toNat

/-- The canvas a draw ends with (rule R177): both coordinates are full 8-bit values, read before `VF` is written. -/
def State.drawn (s : State) (x y n : Nibble) : Canvas :=
  (Canvas.mk s.framebuffer false).plotRows (s.reg x).toNat (s.reg y).toNat (s.sprite n)

/-- `Dxyn`, `DRW Vx, Vy, n` (rule R177). -/
def execDrw (x y n : Nibble) (s : State) : Host.Outcome State Fault Refusal :=
  if inRange s.base n.toNat then
    .next ((s.commit (s.drawn x y n).fb).setReg vf (flagByte (s.drawn x y n).hit))
  else raiseIn (.drw x y n) .addressOutOfRange s

/-- `00E0`, `CLS` (rule R181). -/
def execCls (s : State) : Host.Outcome State Fault Refusal := .next (s.commit (List.replicate Config.fbBytes 0x00))

end Sys2Proof.Machine
end

