-- ==== Sys2Proof/Machine/Index.lean ====
section
/-! DEFINITION. Address-register and memory instructions (rules R130 to R136): their EXECUTE phase. The whole range of an
access is checked before any byte moves, and no access changes `I` (rule R130). -/

namespace Sys2Proof.Machine

/-- `Annn`, `LD I, nnn` (rule R131). -/
def execLdI (nnn : Addr) (s : State) : Host.Outcome State Fault Refusal := .next (s.setI (zextAddr nnn))

/-- `Fx1E`, `ADD I, Vx` (rule R132): modulo 65536, no flag. -/
def execAddI (x : Nibble) (s : State) : Host.Outcome State Fault Refusal :=
  .next (s.setI (trunc16 (s.i.toNat + (s.reg x).toNat)))

/-- `Fx55`, `LD [I], Vx` (rule R133). -/
def execStRegs (x : Nibble) (s : State) : Host.Outcome State Fault Refusal :=
  if inRange s.base (rangeSize x) then .next (s.store s.base (s.regRange x))
  else raiseIn (.stRegs x) .addressOutOfRange s

/-- `Fx65`, `LD Vx, [I]` (rule R134). -/
def execLdRegs (x : Nibble) (s : State) : Host.Outcome State Fault Refusal :=
  if inRange s.base (rangeSize x) then .next (s.loadRange x s.base)
  else raiseIn (.ldRegs x) .addressOutOfRange s

/-- `Fx33`, `LD B, Vx` (rule R135). -/
def execLdB (x : Nibble) (s : State) : Host.Outcome State Fault Refusal :=
  if inRange s.base 3 then .next (s.store s.base (decimalDigits (s.reg x)))
  else raiseIn (.ldB x) .addressOutOfRange s

/-- `Fx29`, `LD F, Vx` (rule R136): the full 8 bits of `Vx` are tested. -/
def execLdF (x : Nibble) (s : State) : Host.Outcome State Fault Refusal :=
  if (s.reg x).toNat < 16 then .next (s.setI (glyphAddress (s.reg x).toNat))
  else raiseIn (.ldF x) .undefinedHexadecimal s

end Sys2Proof.Machine
end

