-- ==== Sys2Proof/Machine/Keypad.lean ====
section
/-! DEFINITION. Keyboard instructions (rules R160 to R162): their EXECUTE phase. They write nothing but `PC`. -/

namespace Sys2Proof.Machine

/-- The key flag the full 8-bit value of `Vx` selects, or none for a value above 15 (rule R160: no masking). -/
def State.keyOf (s : State) (x : Nibble) : Option Bool :=
  if (s.reg x).toNat ≤ 15 then some (s.keyAt (BitVec.ofNat 4 (s.reg x).toNat)) else none

/-- `Ex9E`, `SKP Vx` (rule R161). -/
def execSkp (x : Nibble) (s : State) : Host.Outcome State Fault Refusal :=
  match s.keyOf x with
  | some pressed => .next (skipIf pressed s)
  | none => raiseIn (.skp x) .wrongKey s

/-- `ExA1`, `SKNP Vx` (rule R162). -/
def execSknp (x : Nibble) (s : State) : Host.Outcome State Fault Refusal :=
  match s.keyOf x with
  | some pressed => .next (skipIf (!pressed) s)
  | none => raiseIn (.sknp x) .wrongKey s

end Sys2Proof.Machine
end

