-- ==== Sys2Proof/Machine/Random.lean ====
section
/-! DEFINITION. The random instruction (rule R170): its EXECUTE phase. -/

namespace Sys2Proof.Machine

/-- The Operation of `Cxkk` (rule R170) with the random byte `rnd`: `V[x] <- rnd AND kk`. -/
def State.loadRandom (s : State) (x : Nibble) (kk rnd : Byte) : State := s.setReg x (rnd &&& kk)

/-- `Cxkk`, `RND Vx, kk` (rule R170), where no STEP hands a byte over: exactly one byte is used, the next free value
(log 4). -/
def execRnd (x : Nibble) (kk : Byte) (s : State) : Host.Outcome State Fault Refusal :=
  .next (s.draw.2.loadRandom x kk s.draw.1)

end Sys2Proof.Machine
end

