-- ==== Sys2Proof/Machine/Timers.lean ====
section
/-! DEFINITION. Timer instructions (rules R150 to R153): their EXECUTE phase, in which this step's TICK has already
happened (rule R85). -/

namespace Sys2Proof.Machine

/-- `Fx07`, `LD Vx, DT` (rule R150). -/
def execLdVxDt (x : Nibble) (s : State) : Host.Outcome State Fault Refusal := .next (s.setReg x s.dt)

/-- `Fx15`, `LD DT, Vx` (rule R151). -/
def execLdDtVx (x : Nibble) (s : State) : Host.Outcome State Fault Refusal := .next (s.setDt (s.reg x))

/-- `Fx18`, `LD ST, Vx` (rule R152). -/
def execLdStVx (x : Nibble) (s : State) : Host.Outcome State Fault Refusal := .next (s.setSt (s.reg x))

end Sys2Proof.Machine
end

