-- ==== Sys2Proof/Machine/Step.lean ====
section
/-! DEFINITION. The STEP transaction as a function of the state (rule R81): FETCH, DECODE, ADVANCE, TICK, EXECUTE, and
where a test word is placed for the next fetch. Everything a step does is an operation of Machine/Ops.lean or a meaning
`exec` calls. -/

namespace Sys2Proof.Machine

/-- One STEP (rules R80 to R86) as the host's interface has it, a function of the state: its random byte is the next free
value (log 4). The STEP that carries its byte is `stepWith` in Machine/Transactions.lean. -/
def step (s : State) : Host.Outcome State Fault Refusal := stepBy exec s

/-- `s` with the table word stored at `PC`, the high byte at the lower address (rule R43). Only memory changes: the fetch
needs nothing else, in `EMPTY` as in `READY` (rule R80; log 11). -/
def State.withFetchWord (s : State) (nbits w : Nat) : State := s.store s.pc.toNat (bytesOfWord (tableWord nbits w))

end Sys2Proof.Machine
end

