-- ==== Sys2Proof/Machine/Transactions.lean ====
section
/-! DEFINITION. The host's six transactions (rules R200 to R208, R250 to R253): atomic, serialised, each a function of the
state. The duties of the host are not enforced here, but for a LOAD outside `EMPTY`, which has no transition (log 10). -/

namespace Sys2Proof.Machine

/-! ### A STEP and its random byte (rules R203, R204) -/

/-- EXECUTE in a STEP that carries the byte `rnd`: rule R204 gives the byte to `Cxkk` alone, and every other instruction
ignores it, whence the one arm for them all. -/
def execWith (rnd : Byte) (i : Instr) (s : State) : Host.Outcome State Fault Refusal :=
  match i with
  | .rnd x kk => .next (s.loadRandom x kk rnd)
  | other => exec other s

/-- The STEP transaction (rule R81) with the byte `rnd` it carries. It neither reads nor writes `draws`: the random
source has no state here (rules R7, R25). -/
def stepWith (rnd : Byte) (s : State) : Host.Outcome State Fault Refusal := stepBy (execWith rnd) s

/-! ### The transactions -/

/-- What the host asks of the CORE (rule R200). -/
inductive Transaction where
  /-- RESET (rules R201, R250). -/
  | reset
  /-- LOAD (rules R202, R252). -/
  | load (rom : List Byte)
  /-- STEP (rule R203), with the byte it carries from the random source (rule R204): any byte. -/
  | step (rnd : Byte)
  /-- SET_KEY (rule R205): the index is 4 bits wide. -/
  | setKey (k : Nibble) (pressed : Bool)
  /-- RESET_KEYBOARD (rule R206). -/
  | resetKeyboard
  /-- FRAMEBUFFER (rule R207). -/
  | framebuffer
deriving DecidableEq, Repr

/-- What the CORE returns (the third column of rule R200's table). -/
inductive Reply where
  /-- Nothing is returned. -/
  | nothing
  /-- The LOAD or the STEP succeeded. -/
  | ok
  /-- The ROM does not fit (rule R253). -/
  | memoryFull
  /-- The fault recorded in `ERR` (rules R203, R225). -/
  | fault (record : FaultRecord)
  /-- The bytes of the framebuffer (rule R207). -/
  | bytes (fb : List Byte)
deriving DecidableEq, Repr

/-- The state RESET leaves (rule R250). `draws` is no state of the CORE: like every transaction RESET neither reads nor
changes it (log 4). -/
def State.afterReset (s : State) : State := { State.reset with draws := s.draws }

/-- The ROM fits the program area (rules R252, R253). -/
def romFits (rom : List Byte) : Bool := decide (Config.entry + rom.length ≤ Config.progEnd)

/-- The state a successful LOAD leaves (rule R252): font, ROM, display region, `RUN <- READY`. -/
def State.loaded (s : State) (rom : List Byte) : State :=
  { ((s.store Config.fontBase Config.font).store Config.entry rom).store Config.displayBase
      (List.replicate Config.fbBytes 0x00) with run := .ready }

/-- `KEY[k] <- pressed` (rule R205). -/
def State.setKey (s : State) (k : Nibble) (pressed : Bool) : State :=
  { s with key := s.key.set k.toNat pressed k.isLt }

/-- `KEY[k] <- 0` for every `k` (rule R206). -/
def State.resetKeyboard (s : State) : State := { s with key := Vector.replicate 16 false }

/-- What a STEP returns, read from the state it leaves (rules R203, R225; log 18). -/
def stepReply (s : State) : Reply := if s.run = .halted then .fault s.err else .ok

/-- RESET (rules R201, R250). -/
def transactReset (s : State) : Host.Outcome (State × Reply) Fault Refusal := .next (s.afterReset, .nothing)

/-- LOAD (rules R202, R252, R253). -/
def transactLoad (rom : List Byte) (s : State) : Host.Outcome (State × Reply) Fault Refusal :=
  if s.run = .empty then
    if romFits rom then .next (s.loaded rom, .ok) else .next (s, .memoryFull)
  else .refused .loadNotEmpty

/-- STEP (rules R203, R204). -/
def transactStep (rnd : Byte) (s : State) : Host.Outcome (State × Reply) Fault Refusal :=
  match stepWith rnd s with
  | .next t => .next (t, stepReply t)
  | .fault f => .fault f
  | .refused r => .refused r

/-- One transaction (rule R200). -/
def transact (t : Transaction) (s : State) : Host.Outcome (State × Reply) Fault Refusal :=
  match t with
  | .reset => transactReset s
  | .load rom => transactLoad rom s
  | .step rnd => transactStep rnd s
  | .setKey k pressed => .next (s.setKey k pressed, .nothing)
  | .resetKeyboard => .next (s.resetKeyboard, .nothing)
  | .framebuffer => .next (s, .bytes s.framebuffer)

end Sys2Proof.Machine
end

