-- ==== Sys2Proof/Safety.lean ====
section
/-! DEFINITION. The terms claims are stated in: the invariant of the machine, the phases before EXECUTE and the halted state
as the rules write them, the pixels of the screen and of a sprite, the source's byte-level blit, and the tables of rules
R11, R16, R30, R46 and R221. They are written from the spec's words, apart from the meanings they are claims about. -/

namespace Sys2Proof.Machine

/-- What every reachable state satisfies: memory in canonical form, at most `STACK_LIMIT` return addresses (rule R17), each
an advanced `PC` and so at most `0x1000`, `PC` at most `0x10FE` (rule R15), and `ERR` set exactly in `HALTED`, where it
holds a fault a STEP can raise (rules R23, R211). -/
structure Inv (s : State) : Prop where
  mem_wf : s.mem.wf = true
  stack_le : s.stack.length ≤ 16
  stack_addr : ∀ a ∈ s.stack, a.toNat ≤ 0x1000
  pc_le : s.pc.toNat ≤ 0x10FE
  err_clear : s.run ≠ .halted → s.err = ⟨0, 0⟩
  err_set : s.run = .halted → 2 ≤ s.err.code.toNat

/-- The table of rule R30: what every piece of the spec's state holds after reset. -/
structure AtReset (s : State) : Prop where
  regs : ∀ r : Nibble, s.reg r = 0x00
  stack : s.stack = []
  pc : s.pc = 0x0200
  dt : s.dt = 0x00
  st : s.st = 0x00
  i : s.i = 0x0000
  keys : ∀ k : Nibble, s.keyAt k = false
  mem : ∀ a < 4096, s.mem.read a = 0x00
  run : s.run = .empty
  err : s.err = ⟨0, 0x0000⟩

/-- The word FETCH reads (rules R43, R82): the byte at `PC` times 256 plus the byte at `PC + 1`. -/
def fetchedWord (s : State) : Word :=
  BitVec.ofNat 16 ((s.mem.read s.pc.toNat).toNat * 256 + (s.mem.read (s.pc.toNat + 1)).toNat)

/-- The state ADVANCE and TICK leave (rules R84, R85). -/
def advancedAndTicked (s : State) : State :=
  { s with pc := s.pc + 2, dt := if s.dt = 0 then 0 else s.dt - 1, st := if s.st = 0 then 0 else s.st - 1 }

/-- The state with a fault recorded and the CORE halted (rule R223). -/
def haltedWith (s : State) (code : BitVec 3) (info : Word) : State := { s with run := .halted, err := ⟨code, info⟩ }

/-- The pixel of the screen in row `r` and column `c`, as rule R175 places it in RAM. -/
def screenPixel (s : State) (r c : Nat) : Bool := (s.mem.read (0xF00 + r * 8 + c / 8)).getLsbD (7 - c % 8)

/-- `Dxyn` puts a set sprite pixel at row `r`, column `c` of the screen (rules R176, R177, R180). -/
def spriteCovers (s : State) (x y n : Nibble) (r c : Nat) : Bool :=
  decide (r < 32) && decide (c < 64) &&
  decide ((s.reg y).toNat ≤ r) && decide (r < (s.reg y).toNat + n.toNat) &&
  decide ((s.reg x).toNat ≤ c) && decide (c < (s.reg x).toNat + 8) &&
  (s.mem.read (s.i.toNat + (r - (s.reg y).toNat))).getLsbD (7 - (c - (s.reg x).toNat))

/-- One row of the source's byte-level blit (rule R178): the sprite byte, or its two shifted halves, XORed into the byte or
the two bytes it straddles; the half past the right edge is dropped. -/
def blitRow (fb : List Byte) (x0 r : Nat) (b : Byte) : List Byte :=
  if r < 32 ∧ x0 < 64 then
    let k := r * 8 + x0 / 8
    let first := fb.set k (fb.getD k 0 ^^^ (b >>> (x0 % 8)))
    if x0 % 8 ≠ 0 ∧ x0 / 8 + 1 < 8 then first.set (k + 1) (first.getD (k + 1) 0 ^^^ (b <<< (8 - x0 % 8))) else first
  else fb

/-- The rows of the byte-level blit (rule R178), the first at screen row `y0`. -/
def blitRows (fb : List Byte) (x0 : Nat) : (y0 : Nat) → List Byte → List Byte
  | _, [] => fb
  | y0, b :: bs => blitRows (blitRow fb x0 y0 b) x0 (y0 + 1) bs

/-- The glyphs of the hexadecimal digits, the rows of each from the top: the table of rule R46, written out again from the
spec beside `Config.font` (the bytes are the spec's decision D18, log 5). -/
def glyphs : List (List Byte) :=
  [[0xF0, 0x90, 0x90, 0x90, 0xF0], [0x20, 0x60, 0x20, 0x20, 0x70], [0xF0, 0x10, 0xF0, 0x80, 0xF0],
   [0xF0, 0x10, 0xF0, 0x10, 0xF0], [0x90, 0x90, 0xF0, 0x10, 0x10], [0xF0, 0x80, 0xF0, 0x10, 0xF0],
   [0xF0, 0x80, 0xF0, 0x90, 0xF0], [0xF0, 0x10, 0x20, 0x40, 0x40], [0xF0, 0x90, 0xF0, 0x90, 0xF0],
   [0xF0, 0x90, 0xF0, 0x10, 0xF0], [0xF0, 0x90, 0xF0, 0x90, 0x90], [0xE0, 0x90, 0xE0, 0x90, 0xE0],
   [0xF0, 0x80, 0x80, 0x80, 0xF0], [0xE0, 0x90, 0x90, 0x90, 0xE0], [0xF0, 0x80, 0xF0, 0x80, 0xF0],
   [0xF0, 0x80, 0xF0, 0x80, 0x80]]

/-- Row `r` of the glyph of digit `d` (rule R46). -/
def glyphRow (d r : Nat) : Byte := (glyphs.getD d []).getD r 0

/-- The code of the fault an instruction raises in a state, if any: the table of rule R221, with the codes of rule R220.
`2nnn` faults on every stack of at least 16 entries: 16 is the spec's decision D4 (log 5), more than 16 is the model's
reading of states no run reaches (log 12). -/
def faultCodeOf (s : State) : Instr → Option (BitVec 3)
  | .call _ => if s.stack.length < 16 then none else some 2
  | .ret => if s.stack.length = 0 then some 3 else none
  | .ldF x => if 16 ≤ (s.reg x).toNat then some 5 else none
  | .skp x | .sknp x => if 15 < (s.reg x).toNat then some 6 else none
  | .stRegs x | .ldRegs x => if 0xFFF < s.i.toNat + x.toNat then some 7 else none
  | .ldB _ => if 0xFFF < s.i.toNat + 2 then some 7 else none
  | .drw _ _ n => if 0 < n.toNat ∧ 0xFFF < s.i.toNat + n.toNat - 1 then some 7 else none
  | _ => none

/-- How many bytes of data an instruction moves at `I` (rule R45); the display region `Dxyn` and `00E0` rewrite lies inside
the address space and needs no check. -/
def dataBytes : Instr → Nat
  | .stRegs x | .ldRegs x => x.toNat + 1
  | .ldB _ => 3
  | .drw _ _ n => n.toNat
  | _ => 0

/-- The general registers an instruction may write: the write rows of the table of rule R11. -/
def writesReg (i : Instr) (r : Nibble) : Bool :=
  match i with
  | .ldImm x _ | .addImm x _ | .ldReg x _ | .orReg x _ | .andReg x _ | .xorReg x _ | .rnd x _ | .ldVxDt x => r == x
  | .addReg x _ | .subReg x _ | .shr x _ | .subnReg x _ | .shl x _ => r == x || r == 0xF
  | .drw _ _ _ => r == 0xF
  | .ldRegs x => decide (r.toNat ≤ x.toNat)
  | _ => false

/-- The condition of a conditional skip (rules R115 to R118, R161, R162), false for every other instruction. -/
def skips (s : State) : Instr → Bool
  | .seImm x kk => s.reg x == kk
  | .sneImm x kk => s.reg x != kk
  | .seReg x y => s.reg x == s.reg y
  | .sneReg x y => s.reg x != s.reg y
  | .skp x => s.key[(s.reg x).toNat]?.getD false
  | .sknp x => !(s.key[(s.reg x).toNat]?.getD true)
  | _ => false

/-- `PC` after an instruction fetched at `a` completes: the table of rule R16. -/
def pcAfter (s : State) (a : Nat) : Instr → Nat
  | .jp nnn | .call nnn => nnn.toNat
  | .ret => (s.stack.getLastD 0).toNat
  | .jpV0 nnn => nnn.toNat + (s.reg 0).toNat
  | i => if skips s i then a + 4 else a + 2

end Sys2Proof.Machine
end

