-- ==== Sys2Proof/Certificates/Slice0/Obligations.lean ====
section
/-! DEFINITION. The statements for the provers. Each is about the machine, none about a program; each docstring names
the rules of spec/ it formalises, and where one of them is a decision or an inference the spec marks as its own (spec/
92_eei_decisions.md), or the model's own choice (notes/assumptions), which. "EXECUTE" is `exec` on the state ADVANCE and
TICK left (rule R88), so `s.pc` is there the address of the next instruction. -/

open Sys2Proof Sys2Proof.Machine

/-! ### Encoding -/

/-- Rules R62, R63 (an inference the spec marks), R66: the word of every instruction, at every value of every operand,
decodes to that instruction, and every instruction is well formed (log 19). -/
def Obligations.DecodeOfEncode : Prop :=
  ∀ i : Instr, i.wf = true ∧ decode (encode i) = some i

/-- Rules R62, R66, R69 (an inference the spec marks): an instruction read from a word has that word, so decoding drops
no bit. -/
def Obligations.EncodeOfDecode : Prop :=
  ∀ (w : Word) (i : Instr), decode w = some i → encode i = w

/-- Rule R66: a word is each form exactly when its masked bits are the row's match value, and its fields are those of
rule R62. -/
def Obligations.OpcodeMapRows : Prop :=
  ∀ w : Word,
    (decode w = some .cls ↔ w &&& 0xFFFF = 0x00E0) ∧
    (decode w = some .ret ↔ w &&& 0xFFFF = 0x00EE) ∧
    (decode w = some (.jp (w.extractLsb' 0 12)) ↔ w &&& 0xF000 = 0x1000) ∧
    (decode w = some (.call (w.extractLsb' 0 12)) ↔ w &&& 0xF000 = 0x2000) ∧
    (decode w = some (.seImm (w.extractLsb' 8 4) (w.extractLsb' 0 8)) ↔ w &&& 0xF000 = 0x3000) ∧
    (decode w = some (.sneImm (w.extractLsb' 8 4) (w.extractLsb' 0 8)) ↔ w &&& 0xF000 = 0x4000) ∧
    (decode w = some (.seReg (w.extractLsb' 8 4) (w.extractLsb' 4 4)) ↔ w &&& 0xF00F = 0x5000) ∧
    (decode w = some (.ldImm (w.extractLsb' 8 4) (w.extractLsb' 0 8)) ↔ w &&& 0xF000 = 0x6000) ∧
    (decode w = some (.addImm (w.extractLsb' 8 4) (w.extractLsb' 0 8)) ↔ w &&& 0xF000 = 0x7000) ∧
    (decode w = some (.ldReg (w.extractLsb' 8 4) (w.extractLsb' 4 4)) ↔ w &&& 0xF00F = 0x8000) ∧
    (decode w = some (.orReg (w.extractLsb' 8 4) (w.extractLsb' 4 4)) ↔ w &&& 0xF00F = 0x8001) ∧
    (decode w = some (.andReg (w.extractLsb' 8 4) (w.extractLsb' 4 4)) ↔ w &&& 0xF00F = 0x8002) ∧
    (decode w = some (.xorReg (w.extractLsb' 8 4) (w.extractLsb' 4 4)) ↔ w &&& 0xF00F = 0x8003) ∧
    (decode w = some (.addReg (w.extractLsb' 8 4) (w.extractLsb' 4 4)) ↔ w &&& 0xF00F = 0x8004) ∧
    (decode w = some (.subReg (w.extractLsb' 8 4) (w.extractLsb' 4 4)) ↔ w &&& 0xF00F = 0x8005) ∧
    (decode w = some (.shr (w.extractLsb' 8 4) (w.extractLsb' 4 4)) ↔ w &&& 0xF00F = 0x8006) ∧
    (decode w = some (.subnReg (w.extractLsb' 8 4) (w.extractLsb' 4 4)) ↔ w &&& 0xF00F = 0x8007) ∧
    (decode w = some (.shl (w.extractLsb' 8 4) (w.extractLsb' 4 4)) ↔ w &&& 0xF00F = 0x800E) ∧
    (decode w = some (.sneReg (w.extractLsb' 8 4) (w.extractLsb' 4 4)) ↔ w &&& 0xF00F = 0x9000) ∧
    (decode w = some (.ldI (w.extractLsb' 0 12)) ↔ w &&& 0xF000 = 0xA000) ∧
    (decode w = some (.jpV0 (w.extractLsb' 0 12)) ↔ w &&& 0xF000 = 0xB000) ∧
    (decode w = some (.rnd (w.extractLsb' 8 4) (w.extractLsb' 0 8)) ↔ w &&& 0xF000 = 0xC000) ∧
    (decode w = some (.drw (w.extractLsb' 8 4) (w.extractLsb' 4 4) (w.extractLsb' 0 4)) ↔ w &&& 0xF000 = 0xD000) ∧
    (decode w = some (.skp (w.extractLsb' 8 4)) ↔ w &&& 0xF0FF = 0xE09E) ∧
    (decode w = some (.sknp (w.extractLsb' 8 4)) ↔ w &&& 0xF0FF = 0xE0A1) ∧
    (decode w = some (.ldVxDt (w.extractLsb' 8 4)) ↔ w &&& 0xF0FF = 0xF007) ∧
    (decode w = some (.ldDtVx (w.extractLsb' 8 4)) ↔ w &&& 0xF0FF = 0xF015) ∧
    (decode w = some (.ldStVx (w.extractLsb' 8 4)) ↔ w &&& 0xF0FF = 0xF018) ∧
    (decode w = some (.addI (w.extractLsb' 8 4)) ↔ w &&& 0xF0FF = 0xF01E) ∧
    (decode w = some (.ldF (w.extractLsb' 8 4)) ↔ w &&& 0xF0FF = 0xF029) ∧
    (decode w = some (.ldB (w.extractLsb' 8 4)) ↔ w &&& 0xF0FF = 0xF033) ∧
    (decode w = some (.stRegs (w.extractLsb' 8 4)) ↔ w &&& 0xF0FF = 0xF055) ∧
    (decode w = some (.ldRegs (w.extractLsb' 8 4)) ↔ w &&& 0xF0FF = 0xF065)

/-- The groups of unknown words tabled under rule R67 (an inference the spec marks), by the nibbles of the word; `Fx0A`
and `0nnn` are among them (rule R68, the spec's decision D10). -/
def Obligations.UnknownWordsAreExactlyTheTabledGroups : Prop :=
  ∀ w : Word, decode w = none ↔
    (w.extractLsb' 12 4 = 0x0#4 ∧ w ≠ 0x00E0 ∧ w ≠ 0x00EE) ∨
    (w.extractLsb' 12 4 = 0x5#4 ∧ w.extractLsb' 0 4 ≠ 0x0#4) ∨
    (w.extractLsb' 12 4 = 0x8#4 ∧ w.extractLsb' 0 4 ∈ [0x8#4, 0x9#4, 0xA#4, 0xB#4, 0xC#4, 0xD#4, 0xF#4]) ∨
    (w.extractLsb' 12 4 = 0x9#4 ∧ w.extractLsb' 0 4 ≠ 0x0#4) ∨
    (w.extractLsb' 12 4 = 0xE#4 ∧ w.extractLsb' 0 8 ∉ [0x9E#8, 0xA1#8]) ∨
    (w.extractLsb' 12 4 = 0xF#4 ∧
      w.extractLsb' 0 8 ∉ [0x07#8, 0x15#8, 0x18#8, 0x1E#8, 0x29#8, 0x33#8, 0x55#8, 0x65#8])

/-- Words of the spec's own examples, one or more per family, read as the instructions they stand for. -/
def Obligations.SampleWordsDecode : Prop :=
  decode 0x00E0 = some .cls ∧ decode 0x00EE = some .ret ∧ decode 0x1234 = some (.jp 0x234) ∧
  decode 0x3342 = some (.seImm 0x3 0x42) ∧ decode 0x6A2B = some (.ldImm 0xA 0x2B) ∧
  decode 0x7001 = some (.addImm 0x0 0x01) ∧ decode 0x8015 = some (.subReg 0x0 0x1) ∧
  decode 0x801E = some (.shl 0x0 0x1) ∧ decode 0xA2F0 = some (.ldI 0x2F0) ∧
  decode 0xC30F = some (.rnd 0x3 0x0F) ∧ decode 0xD125 = some (.drw 0x1 0x2 0x5) ∧
  decode 0xE4A1 = some (.sknp 0x4) ∧ decode 0xF307 = some (.ldVxDt 0x3) ∧ decode 0xF129 = some (.ldF 0x1) ∧
  decode 0xF155 = some (.stRegs 0x1) ∧ decode 0xF00A = none ∧ decode 0x0000 = none

/-! ### The step -/

/-- Rules R81 to R86, R204, R225 (with the spec's decisions D7, D8, and faults as next states, log 1): one STEP. A
halted CORE does nothing; a `PC` above `0xFFE` faults before anything else; else the word at `PC` is decoded, `PC`
advances, the timers tick, and the instruction runs, or the word is unknown. It is so of the host's `step`, and of the
transaction that carries the byte `rnd`, whose EXECUTE differs for `Cxkk` alone (log 4; RandomByteIsMasked). -/
def Obligations.StepPerformsFivePhases : Prop :=
  ∀ (s : State) (rnd : Byte),
    let phases (execute : Instr → State → Host.Outcome State Fault Refusal) :=
      if s.run = .halted then .next s
      else if 0xFFE < s.pc.toNat then .next (haltedWith s 7 s.pc)
      else match decode (fetchedWord s) with
        | some i => execute i (advancedAndTicked s)
        | none => .next (haltedWith (advancedAndTicked s) 4 (fetchedWord s))
    step s = phases exec ∧ stepWith rnd s = phases (execWith rnd)

/-- Rules R84 to R86, R88: when the word at `PC` decodes to a well-formed instruction, the step is EXECUTE of it on the
state with `PC` two further and both timers ticked, and nothing else around it; so too a STEP that carries the byte
`rnd` (rule R204). -/
def Obligations.StepRunsDecodedInstruction : Prop :=
  ∀ (s : State) (i : Instr), s.run ≠ .halted → s.pc.toNat ≤ 0xFFE → decode (fetchedWord s) = some i → i.wf = true →
    let u : State := { s with pc := s.pc + 2,
                              dt := if s.dt = 0 then 0 else s.dt - 1, st := if s.st = 0 then 0 else s.st - 1 }
    step s = exec i u ∧ ∀ rnd, stepWith rnd s = execWith rnd i u

/-- Rule R225 (the spec's decision D8; log 2): in `HALTED` a STEP changes nothing and returns the recorded fault again,
LOAD is refused, the key transactions and FRAMEBUFFER still work, and only RESET leaves `HALTED`. -/
def Obligations.HaltedCoreStaysHalted : Prop :=
  ∀ s : State, s.run = .halted →
    (∀ rnd, transact (.step rnd) s = .next (s, .fault s.err)) ∧
    (∀ rom, transact (.load rom) s = .refused .loadNotEmpty) ∧
    (∀ k p, ∃ t, transact (.setKey k p) s = .next (t, .nothing) ∧ t.keyAt k = p) ∧
    (∃ t, transact .resetKeyboard s = .next (t, .nothing) ∧ ∀ k, t.keyAt k = false) ∧
    (∃ fb, transact .framebuffer s = .next (s, .bytes fb)) ∧
    (∀ tr t r, tr ≠ .reset → transact tr s = .next (t, r) → t.run = .halted ∧ t.err = s.err) ∧
    (∃ t, transact .reset s = .next (t, .nothing) ∧ t.run = .empty)

/-- No refusal and no stop (rule R203; faults are taken as next states, log 1): EXECUTE of every instruction in every
state, and so every STEP, whatever byte it carries, answers a next state. -/
def Obligations.EveryStepAnswersNext : Prop :=
  (∀ (i : Instr) (s : State), ∃ t, exec i s = .next t) ∧ ∀ s : State, (∃ t, step s = .next t) ∧
    ∀ rnd, ∃ t, stepWith rnd s = .next t

/-- Rule R203 (with faults as next states, log 1, and the reply read from the state after the step, log 18): a STEP
returns `ok` when the instruction completes and the fault otherwise, which stays readable in `ERR`; a STEP request is
never refused, whatever random byte it carries. -/
def Obligations.StepReturnsOkOrTheFault : Prop :=
  ∀ (s : State) (rnd : Byte), s.run ≠ .halted → ∃ t, stepWith rnd s = .next t ∧
    (t.run ≠ .halted → transact (.step rnd) s = .next (t, .ok)) ∧
    (t.run = .halted → transact (.step rnd) s = .next (t, .fault t.err))

/-! ### Reset and the invariant -/

/-- Rules R30, R250 (the spec's decisions D8, D23 for `I`, the keys, RAM, `RUN` and `ERR`): RESET, in any state, and the
state the host starts from leave every piece of state at its reset value. -/
def Obligations.ResetSetsEveryPiece : Prop :=
  (∀ s : State, ∃ t, transact .reset s = .next (t, .nothing) ∧ AtReset t) ∧ AtReset State.reset

/-- The invariant, whose bounds rest on the spec's decisions D4, D5 and D8, holds at reset. -/
def Obligations.InvHoldsAtReset : Prop := Inv State.reset

/-- Rules R15, R17, R23, R211 (with the spec's decisions D4, D5, D8) and the canonical form of memory: from every state
that meets the invariant a step leads to one that does. -/
def Obligations.StepKeepsInv : Prop :=
  ∀ s t : State, Inv s → step s = .next t → Inv t

/-- Every transaction of the host keeps the invariant, whose bounds rest on the spec's decisions D4, D5 and D8. -/
def Obligations.TransactionsKeepInv : Prop :=
  ∀ (tr : Transaction) (s t : State) (r : Reply), Inv s → transact tr s = .next (t, r) → Inv t

/-- Equal memories are equal data: two memories in canonical form that read alike everywhere are the same list. -/
def Obligations.CanonicalMemoriesThatReadAlikeAreEqual : Prop :=
  ∀ m n : Memory, m.wf = true → n.wf = true → (∀ a, m.read a = n.read a) → m = n

/-! ### Faults -/

/-- Rules R221, R222 (inferences and decisions the spec marks, D7, D8, D9; log 8): every row of the table of faults, and
no other fault. The row of `2nnn` says `SP = STACK_LIMIT`: that the limit is 16 is the spec's decision D4 (a DESIGN
CHOICE, log 5), and that a stack of more than 16 entries, which no run reaches, faults like one of 16 is the model's own
choice (a DESIGN CHOICE, log 12). A step whose `PC` is above `0xFFE` raises `AddressOutOfRange` before anything else; a
word of no form raises `UnknownOpcode`; an instruction raises at most the one fault of its row, records its own word and
writes nothing of its own; every other execution leaves `RUN` and `ERR` alone. -/
def Obligations.FaultsAreExactlyTheTabled : Prop :=
  (∀ s : State, s.run ≠ .halted → 0xFFE < s.pc.toNat → step s = .next (haltedWith s 7 s.pc)) ∧
  (∀ s : State, s.run ≠ .halted → s.pc.toNat ≤ 0xFFE → decode (fetchedWord s) = none →
    step s = .next (haltedWith (advancedAndTicked s) 4 (fetchedWord s))) ∧
  ∀ (i : Instr) (s : State), ∃ t, exec i s = .next t ∧
    match faultCodeOf s i with
    | some code => t = haltedWith s code (encode i)
    | none => t.run = s.run ∧ t.err = s.err

/-- Rules R87, R223, R224 (the spec's decisions D7, D8, D9; log 8): a step that faults leaves one of exactly two shapes
of state. -/
def Obligations.FaultingStepHasOneOfTwoShapes : Prop :=
  ∀ s t : State, s.run ≠ .halted → step s = .next t → t.run = .halted →
    (0xFFE < s.pc.toNat ∧ t = { s with run := .halted, err := ⟨7, s.pc⟩ }) ∨
    (s.pc.toNat ≤ 0xFFE ∧ ∃ code : BitVec 3, 2 ≤ code.toNat ∧
      t = { advancedAndTicked s with run := .halted, err := ⟨code, fetchedWord s⟩ })

/-- Rule R42 (the spec's decision D7): an access of `n` bytes is in range exactly when its last byte is at most `0xFFF`,
and no bytes always are. NOT AT ALL: the fetch of a step, and the whole data access of an instruction, raise
`AddressOutOfRange` with nothing else changed exactly when they are not in range. WHOLE: an access that is in range is
performed to its last byte: both bytes of the fetch make the word that runs, every byte of `Fx55`, `Fx33` and `Fx65` is
stored or loaded, and every row of the sprite of `Dxyn` reaches the screen (its place, size and clipping are the spec's
decisions D1, D2, D19, D20, the digits' order D17). -/
def Obligations.AccessOutOfRangeDoesNotHappen : Prop :=
  (∀ addr n : Nat, inRange addr n = true ↔ n = 0 ∨ addr + n - 1 ≤ 0xFFF) ∧
  (∀ s : State, s.run ≠ .halted → (0xFFF < s.pc.toNat + 1 ↔ step s = .next (haltedWith s 7 s.pc))) ∧
  (∀ (i : Instr) (s : State), s.run ≠ .halted →
    (0 < dataBytes i ∧ 0xFFF < s.i.toNat + dataBytes i - 1 ↔ exec i s = .next (haltedWith s 7 (encode i)))) ∧
  (∀ s : State, s.run ≠ .halted → s.pc.toNat + 1 ≤ 0xFFF → step s =
    match decode (fetchedWord s) with
    | some i => exec i (advancedAndTicked s)
    | none => .next (haltedWith (advancedAndTicked s) 4 (fetchedWord s))) ∧
  (∀ (x : Nibble) (s : State), s.i.toNat + x.toNat ≤ 0xFFF →
    (∃ t, exec (.stRegs x) s = .next t ∧ t.run = s.run ∧
      ∀ r : Nibble, r.toNat ≤ x.toNat → t.mem.read (s.i.toNat + r.toNat) = s.reg r) ∧
    (∃ t, exec (.ldRegs x) s = .next t ∧ t.run = s.run ∧
      ∀ r : Nibble, r.toNat ≤ x.toNat → t.reg r = s.mem.read (s.i.toNat + r.toNat))) ∧
  (∀ (x : Nibble) (s : State), s.i.toNat + 2 ≤ 0xFFF → ∃ t, exec (.ldB x) s = .next t ∧ t.run = s.run ∧
    ∀ k < 3, (t.mem.read (s.i.toNat + k)).toNat = (s.reg x).toNat / 10 ^ (2 - k) % 10) ∧
  (∀ (x y n : Nibble) (s : State), (n.toNat = 0 ∨ s.i.toNat + n.toNat - 1 ≤ 0xFFF) →
    ∃ t, exec (.drw x y n) s = .next t ∧ t.run = s.run ∧
      ∀ r < 32, ∀ c < 64, screenPixel t r c = (screenPixel s r c != spriteCovers s x y n r c))

/-! ### What each piece of state is written by, over all instructions -/

/-- Rule R22 (the spec's decision D8): how each transaction leaves `RUN`. -/
def Obligations.RunStateChangesAsTabled : Prop :=
  ∀ (tr : Transaction) (s t : State) (r : Reply), transact tr s = .next (t, r) →
    match tr with
    | .reset => t.run = .empty
    | .load _ => s.run = .empty ∧ (r = .ok ∧ t.run = .ready ∨ r = .memoryFull ∧ t.run = .empty)
    | .step _ => t.run = s.run ∨ s.run ≠ .halted ∧ t.run = .halted ∧ r = .fault t.err
    | .setKey _ _ | .resetKeyboard | .framebuffer => t.run = s.run

/-- Rule R20, its sentences on who writes a key: no instruction and no step, whatever random byte it carries, changes a
key; only the two key transactions and RESET do. -/
def Obligations.KeysAreChangedByTheHostOnly : Prop :=
  (∀ (i : Instr) (s t : State), exec i s = .next t → t.key = s.key) ∧
  (∀ s t : State, step s = .next t → t.key = s.key) ∧
  (∀ (rnd : Byte) (s t : State) (r : Reply), transact (.step rnd) s = .next (t, r) → t.key = s.key) ∧
  (∀ (rom : List Byte) (s t : State) (r : Reply), transact (.load rom) s = .next (t, r) → t.key = s.key)

/-- Rule R49 (an inference the spec marks): only `Fx55`, `Fx33`, `Dxyn` and `00E0` write memory. -/
def Obligations.MemoryIsWrittenByFourForms : Prop :=
  ∀ (i : Instr) (s t : State), (∀ x, i ≠ .stRegs x) → (∀ x, i ≠ .ldB x) → (∀ x y n, i ≠ .drw x y n) → i ≠ .cls →
    exec i s = .next t → t.mem = s.mem

/-- Rule R17, its sentence on who touches the stack: only `2nnn` and `00EE` touch the stack, and no other host
transaction than RESET does. -/
def Obligations.StackIsTouchedByCallAndReturnOnly : Prop :=
  (∀ (i : Instr) (s t : State), (∀ nnn, i ≠ .call nnn) → i ≠ .ret → exec i s = .next t → t.stack = s.stack) ∧
  (∀ (tr : Transaction) (s t : State) (r : Reply), (∀ rnd, tr ≠ .step rnd) → tr ≠ .reset →
    transact tr s = .next (t, r) → t.stack = s.stack)

/-- Rule R14, its sentence on who writes `I`, and rule R130 (the spec's decision D16): `I` is written by `Annn`, `Fx29`
and `Fx1E` alone. -/
def Obligations.IndexIsWrittenByThreeForms : Prop :=
  ∀ (i : Instr) (s t : State), (∀ nnn, i ≠ .ldI nnn) → (∀ x, i ≠ .ldF x) → (∀ x, i ≠ .addI x) →
    exec i s = .next t → t.i = s.i

/-- Rules R11 (an inference the spec marks; its write rows), R12: an instruction changes no general register but those
its row of rule R11's table lets it write; `VF` is one of them only where it is named, loaded, or written as a flag. -/
def Obligations.RegistersAreWrittenAsTabled : Prop :=
  ∀ (i : Instr) (s t : State) (r : Nibble), exec i s = .next t → writesReg i r = false → t.reg r = s.reg r

/-- Rule R85: every step that passes FETCH takes one from each timer that is not 0, whatever the instruction, and also
when it faults; `Fx07` reads the decremented value, and only `Fx15` and `Fx18` leave another value in the timer they
write, which this step does not decrement. -/
def Obligations.TimersTickInEveryStep : Prop :=
  ∀ s t : State, s.run ≠ .halted → s.pc.toNat ≤ 0xFFE → step s = .next t →
    ((∀ x, decode (fetchedWord s) ≠ some (.ldDtVx x)) → t.dt.toNat = s.dt.toNat - 1) ∧
    ((∀ x, decode (fetchedWord s) ≠ some (.ldStVx x)) → t.st.toNat = s.st.toNat - 1) ∧
    (∀ x, decode (fetchedWord s) = some (.ldVxDt x) → (t.reg x).toNat = s.dt.toNat - 1) ∧
    (∀ x, decode (fetchedWord s) = some (.ldDtVx x) → t.dt = s.reg x) ∧
    (∀ x, decode (fetchedWord s) = some (.ldStVx x) → t.st = s.reg x)

/-- Rule R16 (an inference the spec marks): how each instruction, fetched at `a`, leaves `PC`, and that a call pushes `a
+ 2`. -/
def Obligations.PcAfterAStepIsAsTabled : Prop :=
  ∀ s t : State, s.run ≠ .halted → step s = .next t →
    (0xFFE < s.pc.toNat → t.pc = s.pc) ∧
    (s.pc.toNat ≤ 0xFFE → t.run = .halted → t.pc.toNat = s.pc.toNat + 2) ∧
    (s.pc.toNat ≤ 0xFFE → t.run ≠ .halted →
      ∃ i, decode (fetchedWord s) = some i ∧ t.pc.toNat = pcAfter s s.pc.toNat i ∧
        ∀ nnn, i = .call nnn → t.stack = s.stack ++ [s.pc + 2])

/-- Rule R19: nothing reads `ST`, no instruction and no host transaction. One transaction in two states that differ in
the sound timer alone gives the same reply and states that differ in the sound timer at most. -/
def Obligations.SoundTimerIsNeverRead : Prop :=
  ∀ (tr : Transaction) (s : State) (b : Byte),
    (∃ (t : State) (r : Reply) (c : Byte),
      transact tr s = .next (t, r) ∧ transact tr { s with st := b } = .next ({ t with st := c }, r)) ∨
    (∃ f : Refusal, transact tr s = .refused f ∧ transact tr { s with st := b } = .refused f)

/-- Rules R7, R25, R204: the random source has no state, and its byte reaches only `Cxkk`. Any other instruction does
the same whatever byte `rnd` its STEP carries and whatever `draws` is, the counter that is the model's own and stands
for the byte in the host's `step` alone (log 4). No transaction reads or changes `draws`: two states that differ in it
alone go through any transaction alike. The host's `step` is the STEP that carries the next free byte. -/
def Obligations.RandomSourceReachesOnlyRnd : Prop :=
  (∀ (i : Instr) (s : State) (rnd : Byte), (∀ x kk, i ≠ .rnd x kk) → ∃ t, exec i s = .next t ∧
    execWith rnd i s = .next t ∧ t.draws = s.draws ∧
    ∀ d, exec i { s with draws := d } = .next { t with draws := d }) ∧
  (∀ (tr : Transaction) (s : State),
    (∃ (t : State) (r : Reply), transact tr s = .next (t, r) ∧ t.draws = s.draws ∧
      ∀ d, transact tr { s with draws := d } = .next ({ t with draws := d }, r)) ∨
    (∃ f : Refusal, ∀ d, transact tr { s with draws := d } = .refused f)) ∧
  ∀ s : State, ∃ (t : State) (d : Nat), stepWith (Config.randomByte s.draws) s = .next t ∧
    step s = .next { t with draws := d }

/-! ### Register load and arithmetic -/

/-- Rule R92: `6xkk` sets `Vx` to `kk` and changes nothing else. -/
def Obligations.LoadImmediateSetsVxOnly : Prop :=
  ∀ (x : Nibble) (kk : Byte) (s : State), ∃ t, exec (.ldImm x kk) s = .next t ∧ t = { s with v := t.v } ∧
    t.reg x = kk ∧ ∀ r, r ≠ x → t.reg r = s.reg r

/-- Rule R93: `7xkk` adds modulo 256 into `Vx` and has no flag, so `VF` too is unchanged unless it is `Vx`. -/
def Obligations.AddImmediateWrapsWithoutFlag : Prop :=
  ∀ (x : Nibble) (kk : Byte) (s : State), ∃ t, exec (.addImm x kk) s = .next t ∧ t = { s with v := t.v } ∧
    (t.reg x).toNat = ((s.reg x).toNat + kk.toNat) % 256 ∧ ∀ r, r ≠ x → t.reg r = s.reg r

/-- Rule R94 (the spec's decision D35): `8xy0` copies `Vy` to `Vx` and changes nothing else. -/
def Obligations.CopyRegisterSetsVxOnly : Prop :=
  ∀ (x y : Nibble) (s : State), ∃ t, exec (.ldReg x y) s = .next t ∧ t = { s with v := t.v } ∧
    t.reg x = s.reg y ∧ ∀ r, r ≠ x → t.reg r = s.reg r

/-- Rules R95, R96, R97 (the spec's decisions D14, D35): OR, AND and XOR act on each of the 8 bits, write `Vx` alone and
leave `VF` alone. -/
def Obligations.LogicalInstructionsActBitwise : Prop :=
  ∀ (x y : Nibble) (s : State),
    (∃ t, exec (.orReg x y) s = .next t ∧ t = { s with v := t.v } ∧
      (∀ k < 8, (t.reg x).getLsbD k = ((s.reg x).getLsbD k || (s.reg y).getLsbD k)) ∧
      ∀ r, r ≠ x → t.reg r = s.reg r) ∧
    (∃ t, exec (.andReg x y) s = .next t ∧ t = { s with v := t.v } ∧
      (∀ k < 8, (t.reg x).getLsbD k = ((s.reg x).getLsbD k && (s.reg y).getLsbD k)) ∧
      ∀ r, r ≠ x → t.reg r = s.reg r) ∧
    (∃ t, exec (.xorReg x y) s = .next t ∧ t = { s with v := t.v } ∧
      (∀ k < 8, (t.reg x).getLsbD k = ((s.reg x).getLsbD k != (s.reg y).getLsbD k)) ∧
      ∀ r, r ≠ x → t.reg r = s.reg r)

/-- Rule R98: `8xy4` puts the sum modulo 256 in `Vx` and then the carry in `VF`; with `x = 0xF` the carry remains. -/
def Obligations.AddSetsCarry : Prop :=
  ∀ (x y : Nibble) (s : State), ∃ t, exec (.addReg x y) s = .next t ∧ t = { s with v := t.v } ∧
    t.reg 0xF = (if 255 < (s.reg x).toNat + (s.reg y).toNat then 1 else 0) ∧
    (x ≠ 0xF → (t.reg x).toNat = ((s.reg x).toNat + (s.reg y).toNat) % 256) ∧
    ∀ r, r ≠ x → r ≠ 0xF → t.reg r = s.reg r

/-- Rules R99, R101 (the spec's decisions D12, D13): `8xy5` is `Vx - Vy`, `8xy7` is `Vy - Vx`, modulo 256, with `VF` 1
exactly when no borrow occurs. -/
def Obligations.SubtractionsSetNoBorrow : Prop :=
  ∀ (x y : Nibble) (s : State),
    (∃ t, exec (.subReg x y) s = .next t ∧ t = { s with v := t.v } ∧
      t.reg 0xF = (if (s.reg y).toNat ≤ (s.reg x).toNat then 1 else 0) ∧
      (x ≠ 0xF → (t.reg x).toNat =
        if (s.reg y).toNat ≤ (s.reg x).toNat then (s.reg x).toNat - (s.reg y).toNat
        else (s.reg x).toNat + 256 - (s.reg y).toNat) ∧
      ∀ r, r ≠ x → r ≠ 0xF → t.reg r = s.reg r) ∧
    (∃ t, exec (.subnReg x y) s = .next t ∧ t = { s with v := t.v } ∧
      t.reg 0xF = (if (s.reg x).toNat ≤ (s.reg y).toNat then 1 else 0) ∧
      (x ≠ 0xF → (t.reg x).toNat =
        if (s.reg x).toNat ≤ (s.reg y).toNat then (s.reg y).toNat - (s.reg x).toNat
        else (s.reg y).toNat + 256 - (s.reg x).toNat) ∧
      ∀ r, r ≠ x → r ≠ 0xF → t.reg r = s.reg r)

/-- Rules R100, R102 (the spec's decisions D11 for which register is shifted and D12 for the flag): the instructions
shift `Vx` (`SHIFT_SOURCE` at its default), and for either value of the parameter `Vx` gets the operand moved by one bit
with a 0 in the vacated bit, and `VF` ends as the bit shifted out. -/
def Obligations.ShiftsMoveOneBit : Prop :=
  ∀ (x y : Nibble) (s : State),
    exec (.shr x y) s = .next (shiftRight .vx x y s) ∧ exec (.shl x y) s = .next (shiftLeft .vx x y s) ∧
    ∀ (src : Config.ShiftSource) (z : Nibble), (src = .vx ∧ z = x ∨ src = .vy ∧ z = y) →
      (∃ t, t = shiftRight src x y s ∧ t = { s with v := t.v } ∧
        t.reg 0xF = (if (s.reg z).getLsbD 0 then 1 else 0) ∧
        (x ≠ 0xF → (t.reg x).toNat = (s.reg z).toNat / 2) ∧
        ∀ r, r ≠ x → r ≠ 0xF → t.reg r = s.reg r) ∧
      (∃ t, t = shiftLeft src x y s ∧ t = { s with v := t.v } ∧
        t.reg 0xF = (if (s.reg z).getLsbD 7 then 1 else 0) ∧
        (x ≠ 0xF → (t.reg x).toNat = (s.reg z).toNat * 2 % 256) ∧
        ∀ r, r ≠ x → r ≠ 0xF → t.reg r = s.reg r)

/-! ### Control flow -/

/-- Rule R111: `1nnn` sets `PC` to `nnn` and changes nothing else. -/
def Obligations.JumpSetsPcOnly : Prop :=
  ∀ (nnn : Addr) (s : State), ∃ t, exec (.jp nnn) s = .next t ∧ t = { s with pc := t.pc } ∧ t.pc.toNat = nnn.toNat

/-- Rule R114 (the spec's decision D15 for the register): `Bnnn` sets `PC` to `nnn + V0` without reduction and changes
nothing else. -/
def Obligations.JumpWithOffsetAddsV0 : Prop :=
  ∀ (nnn : Addr) (s : State), ∃ t, exec (.jpV0 nnn) s = .next t ∧ t = { s with pc := t.pc } ∧
    t.pc.toNat = nnn.toNat + (s.reg 0).toNat

/-- Rule R112 (the spec's decisions D4, D8): `2nnn` pushes the advanced `PC` and jumps, unless the stack holds 16
entries: then `StackOverflow`. -/
def Obligations.CallPushesTheReturnAddress : Prop :=
  (∀ (nnn : Addr) (s : State), s.stack.length < 16 → ∃ t, exec (.call nnn) s = .next t ∧
    t = { s with stack := s.stack ++ [s.pc], pc := t.pc } ∧ t.pc.toNat = nnn.toNat) ∧
  (∀ (nnn : Addr) (s : State), s.stack.length = 16 →
    exec (.call nnn) s = .next { s with run := .halted, err := ⟨2, encode (.call nnn)⟩ })

/-- Rule R113 (the spec's decision D8 for the fault): `00EE` pops the newest return address into `PC`, unless the stack
is empty: then `StackUnderflow`. -/
def Obligations.ReturnPopsTheNewestAddress : Prop :=
  (∀ (s : State) (older : List Word) (a : Word), s.stack = older ++ [a] →
    exec .ret s = .next { s with stack := older, pc := a }) ∧
  (∀ s : State, s.stack = [] → exec .ret s = .next { s with run := .halted, err := ⟨3, 0x00EE⟩ })

/-- The property rule R113 quotes: a call and a return, with no other instruction between, lead back to exactly the
instruction following the call, with the stack, and all other state, as before. That the call completes on every stack
of fewer than 16 entries rests on `STACK_LIMIT = 16`, the spec's decision D4 (a DESIGN CHOICE, log 5). -/
def Obligations.ReturnUndoesCall : Prop :=
  ∀ (nnn : Addr) (s : State), s.stack.length < 16 →
    ∃ t, exec (.call nnn) s = .next t ∧ t.stack.length = s.stack.length + 1 ∧ exec .ret t = .next s

/-- Rules R115 to R118 (the spec's decision D35): each conditional skip adds 2 to the advanced `PC` when its condition
holds and changes nothing else. -/
def Obligations.ConditionalSkips : Prop :=
  ∀ (x y : Nibble) (kk : Byte) (s : State),
    exec (.seImm x kk) s = .next { s with pc := if s.reg x = kk then s.pc + 2 else s.pc } ∧
    exec (.sneImm x kk) s = .next { s with pc := if s.reg x ≠ kk then s.pc + 2 else s.pc } ∧
    exec (.seReg x y) s = .next { s with pc := if s.reg x = s.reg y then s.pc + 2 else s.pc } ∧
    exec (.sneReg x y) s = .next { s with pc := if s.reg x ≠ s.reg y then s.pc + 2 else s.pc }

/-! ### Address register and memory -/

/-- Rule R131: `Annn` sets `I` to `nnn` and changes nothing else. -/
def Obligations.LoadIndexSetsIOnly : Prop :=
  ∀ (nnn : Addr) (s : State), ∃ t, exec (.ldI nnn) s = .next t ∧ t = { s with i := t.i } ∧ t.i.toNat = nnn.toNat

/-- Rule R132 (the spec's decision D6): `Fx1E` adds `Vx` to `I` modulo 65536, keeps a sum above `0xFFF`, and changes
nothing else, `VF` included. -/
def Obligations.AddToIndexWrapsAtSixteenBits : Prop :=
  ∀ (x : Nibble) (s : State), ∃ t, exec (.addI x) s = .next t ∧ t = { s with i := t.i } ∧
    t.i.toNat = (s.i.toNat + (s.reg x).toNat) % 65536

/-- Rule R133 (with rule R130, the spec's decision D16): `Fx55` stores `V0` to `Vx` at `I` to `I + x`; every other byte,
`I` and every register are unchanged. -/
def Obligations.BlockStoreWritesTheRange : Prop :=
  ∀ (x : Nibble) (s : State), s.i.toNat + x.toNat ≤ 0xFFF → ∃ t, exec (.stRegs x) s = .next t ∧
    t = { s with mem := t.mem } ∧
    (∀ r : Nibble, r.toNat ≤ x.toNat → t.mem.read (s.i.toNat + r.toNat) = s.reg r) ∧
    ∀ a, (a < s.i.toNat ∨ s.i.toNat + x.toNat < a) → t.mem.read a = s.mem.read a

/-- Rule R134 (with rule R130, the spec's decision D16): `Fx65` loads `V0` to `Vx` from `I` to `I + x`; the registers
above `Vx`, `I` and memory are unchanged. -/
def Obligations.BlockLoadReadsTheRange : Prop :=
  ∀ (x : Nibble) (s : State), s.i.toNat + x.toNat ≤ 0xFFF → ∃ t, exec (.ldRegs x) s = .next t ∧
    t = { s with v := t.v } ∧
    (∀ r : Nibble, r.toNat ≤ x.toNat → t.reg r = s.mem.read (s.i.toNat + r.toNat)) ∧
    ∀ r : Nibble, x.toNat < r.toNat → t.reg r = s.reg r

/-- The round trip rule R134 quotes: what `Fx55` stored, `Fx65` with the same `x` loads again, whatever the registers
held in between. -/
def Obligations.BlockStoreThenLoadRoundTrip : Prop :=
  ∀ (x : Nibble) (s : State) (w : Vector Byte 16), s.i.toNat + x.toNat ≤ 0xFFF →
    ∃ t u, exec (.stRegs x) s = .next t ∧ exec (.ldRegs x) { t with v := w } = .next u ∧
      ∀ r : Nibble, r.toNat ≤ x.toNat → u.reg r = s.reg r

/-- Rule R135 (the spec's decision D17): `Fx33` stores the hundreds, tens and ones of `Vx` at `I`, `I + 1`, `I + 2`;
nothing else changes. -/
def Obligations.DecimalDigitsAreStored : Prop :=
  ∀ (x : Nibble) (s : State), s.i.toNat ≤ 0xFFD → ∃ t, exec (.ldB x) s = .next t ∧ t = { s with mem := t.mem } ∧
    (t.mem.read s.i.toNat).toNat = (s.reg x).toNat / 100 ∧
    (t.mem.read (s.i.toNat + 1)).toNat = (s.reg x).toNat / 10 % 10 ∧
    (t.mem.read (s.i.toNat + 2)).toNat = (s.reg x).toNat % 10 ∧
    ∀ a, (a < s.i.toNat ∨ s.i.toNat + 2 < a) → t.mem.read a = s.mem.read a

/-- Rule R136 (the spec's decision D8 for the fault): `Fx29` points `I` at the glyph of a digit, five bytes per glyph
from address 0; a value of 16 or more raises `UndefinedHexadecimal` and leaves `I`. -/
def Obligations.FontGlyphAddress : Prop :=
  (∀ (x : Nibble) (s : State), (s.reg x).toNat < 16 → ∃ t, exec (.ldF x) s = .next t ∧ t = { s with i := t.i } ∧
    t.i.toNat = 5 * (s.reg x).toNat) ∧
  (∀ (x : Nibble) (s : State), 16 ≤ (s.reg x).toNat →
    exec (.ldF x) s = .next { s with run := .halted, err := ⟨5, encode (.ldF x)⟩ })

/-! ### Timers, keys, random -/

/-- The Operation lines of rules R150, R151, R152: `V[x] <- DT` of `Fx07`, `DT <- V[x]` of `Fx15`, `ST <- V[x]` of
`Fx18`, in EXECUTE; nothing else changes. That EXECUTE comes after the tick is TimersTickInEveryStep. -/
def Obligations.TimerInstructions : Prop :=
  ∀ (x : Nibble) (s : State),
    (∃ t, exec (.ldVxDt x) s = .next t ∧ t = { s with v := t.v } ∧ t.reg x = s.dt ∧
      ∀ r, r ≠ x → t.reg r = s.reg r) ∧
    exec (.ldDtVx x) s = .next { s with dt := s.reg x } ∧
    exec (.ldStVx x) s = .next { s with st := s.reg x }

/-- Rules R153, R256 (inferences the spec marks): when `Fx15` writes `k` to `DT` in step 0 of a run and `Fx07` reads it
in step `j`, with no other `Fx15` between, the value read is `max(k - j, 0)`; with `j = 1` it is the written value minus
1. -/
def Obligations.TimerReadAfterWriteCountsTheSteps : Prop :=
  ∀ (run : Nat → State) (j : Nat) (x y : Nibble), 1 ≤ j →
    (∀ m ≤ j, (run m).run ≠ .halted ∧ (run m).pc.toNat ≤ 0xFFE ∧ step (run m) = .next (run (m + 1))) →
    decode (fetchedWord (run 0)) = some (.ldDtVx x) →
    (∀ m ≤ j, 1 ≤ m → ∀ z, decode (fetchedWord (run m)) ≠ some (.ldDtVx z)) →
    decode (fetchedWord (run j)) = some (.ldVxDt y) →
    ((run (j + 1)).reg y).toNat = ((run 0).reg x).toNat - j

/-- Rules R160, R161, R162 (the spec's decisions D8, D27): the key instructions skip on the flag the full value of `Vx`
selects; a value above 15 raises `WrongKey`. Nothing but `PC` is written. -/
def Obligations.KeySkips : Prop :=
  (∀ (x k : Nibble) (s : State), (s.reg x).toNat = k.toNat →
    exec (.skp x) s = .next { s with pc := if s.keyAt k = true then s.pc + 2 else s.pc } ∧
    exec (.sknp x) s = .next { s with pc := if s.keyAt k = false then s.pc + 2 else s.pc }) ∧
  (∀ (x : Nibble) (s : State), 15 < (s.reg x).toNat →
    exec (.skp x) s = .next { s with run := .halted, err := ⟨6, encode (.skp x)⟩ } ∧
    exec (.sknp x) s = .next { s with run := .halted, err := ⟨6, encode (.sknp x)⟩ })

/-- Rule R170: in a STEP that carries the byte `rnd`, `Cxkk` puts `rnd AND kk` in `Vx` and changes nothing else, for
every byte. Where no byte is handed over, in `exec` itself and in the host's `step`, exactly one of the model's free
values `Config.randomByte` stands for it (log 4). -/
def Obligations.RandomByteIsMasked : Prop :=
  ∀ (x : Nibble) (kk : Byte) (s : State),
    (∀ rnd : Byte, ∃ t, execWith rnd (.rnd x kk) s = .next t ∧ t = { s with v := t.v } ∧
      t.reg x = rnd &&& kk ∧ ∀ r, r ≠ x → t.reg r = s.reg r) ∧
    ∃ t, exec (.rnd x kk) s = .next t ∧ t = { s with v := t.v, draws := s.draws + 1 } ∧
      t.reg x = Config.randomByte s.draws &&& kk ∧ ∀ r, r ≠ x → t.reg r = s.reg r

/-! ### Display -/

/-- Rules R175 to R177, R179, R180, R182 (the spec's decisions D1, D2, D12, D19 to D22): `Dxyn` turns over exactly the
pixels of the screen its set sprite pixels cover, read from RAM as it was before the draw; `VF` ends as 1 exactly when
one of them was set; no byte outside the display region changes, and no other register. -/
def Obligations.DrawTurnsOverTheCoveredPixels : Prop :=
  ∀ (x y n : Nibble) (s : State), (n.toNat = 0 ∨ s.i.toNat + n.toNat - 1 ≤ 0xFFF) → ∃ t,
    exec (.drw x y n) s = .next t ∧ t = { s with v := t.v, mem := t.mem } ∧
    (∀ r < 32, ∀ c < 64, screenPixel t r c = (screenPixel s r c != spriteCovers s x y n r c)) ∧
    (t.reg 0xF = 1 ↔ ∃ r < 32, ∃ c < 64, spriteCovers s x y n r c = true ∧ screenPixel s r c = true) ∧
    (t.reg 0xF = 0 ∨ t.reg 0xF = 1) ∧
    (∀ r, r ≠ 0xF → t.reg r = s.reg r) ∧
    ∀ a, (a < 0xF00 ∨ 0xFFF < a) → t.mem.read a = s.mem.read a

/-- Rule R178 (an inference the spec marks; the screen's 64 by 32 pixels and its place at `0xF00` are the spec's
decisions D1 and D2, DESIGN CHOICES, log 5): the draw equals in effect the source's byte-level blit, and its collision
flag the comparison of the working copy with the framebuffer before the draw. -/
def Obligations.DrawEqualsTheByteLevelBlit : Prop :=
  ∀ (x y n : Nibble) (s : State), (n.toNat = 0 ∨ s.i.toNat + n.toNat - 1 ≤ 0xFFF) → ∃ t,
    exec (.drw x y n) s = .next t ∧
    (∀ k < 256, t.mem.read (0xF00 + k) =
      (blitRows ((List.range 256).map fun j => s.mem.read (0xF00 + j)) (s.reg x).toNat (s.reg y).toNat
        ((List.range n.toNat).map fun j => s.mem.read (s.i.toNat + j))).getD k 0) ∧
    (t.reg 0xF = 1 ↔ ∃ k < 256, ∃ b < 8,
      (s.mem.read (0xF00 + k)).getLsbD b = true ∧ (t.mem.read (0xF00 + k)).getLsbD b = false)

/-- The property rule R179 quotes: drawing the same sprite at the same place twice restores the screen, and the second
draw collides exactly when some pixel the sprite covers on the screen was dark before the first. The screen's 64 by 32
pixels and the bound `0xF00` are the spec's decisions D1 and D2 (DESIGN CHOICES, log 5). A coordinate in `VF`, which the
first draw overwrites, and a sprite inside the display region, which it may change, are left to
DrawTurnsOverTheCoveredPixels. -/
def Obligations.DrawingTwiceRestoresTheScreen : Prop :=
  ∀ (x y n : Nibble) (s : State), x ≠ 0xF → y ≠ 0xF → s.i.toNat + n.toNat ≤ 0xF00 → ∃ t u,
    exec (.drw x y n) s = .next t ∧ exec (.drw x y n) t = .next u ∧
    (∀ a, u.mem.read a = s.mem.read a) ∧
    (u.reg 0xF = 0 ∨ u.reg 0xF = 1) ∧
    (u.reg 0xF = 1 ↔ ∃ r < 32, ∃ c < 64, spriteCovers s x y n r c = true ∧ screenPixel s r c = false)

/-- Rule R181: `00E0` zeroes the display region; no other byte and no register changes. That the region is `0xF00` to
`0xFFF` is the spec's decisions D1 and D2 (DESIGN CHOICES, log 5). -/
def Obligations.ClearScreenZeroesTheDisplayRegion : Prop :=
  ∀ s : State, ∃ t, exec .cls s = .next t ∧ t = { s with mem := t.mem } ∧
    (∀ a, 0xF00 ≤ a → a ≤ 0xFFF → t.mem.read a = 0x00) ∧
    ∀ a, (a < 0xF00 ∨ 0xFFF < a) → t.mem.read a = s.mem.read a

/-! ### Host transactions -/

/-- Rules R46, R202, R252, R253 (the spec's decisions D1, D2, D3, D18, D24; the places, the limit and the font's bytes
are DESIGN CHOICES, log 5): a LOAD in `EMPTY` of a ROM that fits installs the font at 0, row `r` of the glyph of digit
`d` at `5 * d + r` as rule R46 lists it, the ROM at `0x200`, zeros in the display region, and sets `READY`, with no
other byte and no register changed; one that does not fit is answered with `MemoryFull` and changes nothing; outside
`EMPTY` a LOAD is refused. -/
def Obligations.LoadPlacesTheRomOrIsTurnedAway : Prop :=
  (∀ (rom : List Byte) (s : State), s.run = .empty → 0x200 + rom.length ≤ 0xF00 → ∃ t,
    transact (.load rom) s = .next (t, .ok) ∧ t = { s with mem := t.mem, run := .ready } ∧
    (∀ d < 16, ∀ r < 5, t.mem.read (5 * d + r) = glyphRow d r) ∧
    (∀ k < rom.length, t.mem.read (0x200 + k) = rom.getD k 0) ∧
    (∀ k < 256, t.mem.read (0xF00 + k) = 0x00) ∧
    ∀ a, (80 ≤ a ∧ a < 0x200 ∨ 0x200 + rom.length ≤ a ∧ a < 0xF00 ∨ 0xFFF < a) → t.mem.read a = s.mem.read a) ∧
  (∀ (rom : List Byte) (s : State), s.run = .empty → 0xF00 < 0x200 + rom.length →
    transact (.load rom) s = .next (s, .memoryFull)) ∧
  (∀ (rom : List Byte) (s : State), s.run ≠ .empty → transact (.load rom) s = .refused .loadNotEmpty)

/-- Rule R31 (an inference the spec marks): the state after RESET and a successful LOAD. The limit of 3328 bytes is the
spec's decision D3 and the font's bytes, those of rule R46's table, D18 (DESIGN CHOICES, log 5); the zeros of RAM, `I`
and the keys, and `RUN` and `ERR`, are its decisions D8 and D23 (log 6). -/
def Obligations.StateAfterResetAndLoad : Prop :=
  ∀ (rom : List Byte) (s : State), rom.length ≤ 3328 → ∃ r t,
    transact .reset s = .next (r, .nothing) ∧ transact (.load rom) r = .next (t, .ok) ∧
    t = { r with mem := t.mem, run := .ready } ∧ AtReset r ∧
    ∀ a < 4096, t.mem.read a =
      if a < 80 then glyphRow (a / 5) (a % 5)
      else if 0x200 ≤ a ∧ a < 0x200 + rom.length then rom.getD (a - 0x200) 0
      else 0x00

/-- Rules R205, R206: SET_KEY writes one key flag, RESET_KEYBOARD releases all sixteen; no other state changes. -/
def Obligations.KeyTransactionsWriteKeysOnly : Prop :=
  ∀ s : State,
    (∀ (k : Nibble) (p : Bool), ∃ t, transact (.setKey k p) s = .next (t, .nothing) ∧ t = { s with key := t.key } ∧
      t.keyAt k = p ∧ ∀ q, q ≠ k → t.keyAt q = s.keyAt q) ∧
    (∃ t, transact .resetKeyboard s = .next (t, .nothing) ∧ t = { s with key := t.key } ∧ ∀ k, t.keyAt k = false)

/-- Rule R207: FRAMEBUFFER returns the bytes of the display region in address order and changes no state. That they are
256 bytes from `0xF00` is the spec's decisions D1 and D2 (DESIGN CHOICES, log 5). -/
def Obligations.FramebufferReturnsTheDisplayRegion : Prop :=
  ∀ s : State, ∃ fb, transact .framebuffer s = .next (s, .bytes fb) ∧ fb.length = 256 ∧
    ∀ k < 256, fb.getD k 0 = s.mem.read (0xF00 + k)
end

