-- ==== Sys2Proof/Laws/Decode.lean ====
section
/-! SUPPORT. The fields of packed words, and the two bytes of a word (rules R43, R62, R63). -/

namespace Sys2Proof

@[simp] theorem fieldNNN_packNNN (op : Nibble) (a : Addr) : fieldNNN (packNNN op a) = a := by
  ext k hk; interval_cases k <;> simp [fieldNNN, packNNN]
@[simp] theorem fieldX_packXKK (op x : Nibble) (b : Byte) : fieldX (packXKK op x b) = x := by
  ext k hk; interval_cases k <;> simp [fieldX, packXKK]
@[simp] theorem fieldKK_packXKK (op x : Nibble) (b : Byte) : fieldKK (packXKK op x b) = b := by
  ext k hk; interval_cases k <;> simp [fieldKK, packXKK]
@[simp] theorem fieldX_packXYN (op x y n : Nibble) : fieldX (packXYN op x y n) = x := by
  ext k hk; interval_cases k <;> simp [fieldX, packXYN]
@[simp] theorem fieldY_packXYN (op x y n : Nibble) : fieldY (packXYN op x y n) = y := by
  ext k hk; interval_cases k <;> simp [fieldY, packXYN]
@[simp] theorem fieldN_packXYN (op x y n : Nibble) : fieldN (packXYN op x y n) = n := by
  ext k hk; interval_cases k <;> simp [fieldN, packXYN]

/-! A word is the pack of its own fields (rule R62). -/

theorem packNNN_fields (w : Word) : packNNN (w.extractLsb' 12 4) (fieldNNN w) = w := by
  ext k hk; interval_cases k <;> simp [fieldNNN, packNNN]
theorem packXKK_fields (w : Word) : packXKK (w.extractLsb' 12 4) (fieldX w) (fieldKK w) = w := by
  ext k hk; interval_cases k <;> simp [fieldX, fieldKK, packXKK]
theorem packXYN_fields (w : Word) : packXYN (w.extractLsb' 12 4) (fieldX w) (fieldY w) (fieldN w) = w := by
  ext k hk; interval_cases k <;> simp [fieldX, fieldY, fieldN, packXYN]

/-! What the masks of rule R66 fix. -/

theorem op_of_maskF000 {w c : Word} (h : w &&& 0xF000 = c) : w.extractLsb' 12 4 = c.extractLsb' 12 4 := by
  subst h; ext k hk; interval_cases k <;> simp
theorem op_of_maskF00F {w c : Word} (h : w &&& 0xF00F = c) :
    w.extractLsb' 12 4 = c.extractLsb' 12 4 ∧ fieldN w = fieldN c := by
  subst h; constructor <;> (ext k hk; interval_cases k <;> simp [fieldN])
theorem op_of_maskF0FF {w c : Word} (h : w &&& 0xF0FF = c) :
    w.extractLsb' 12 4 = c.extractLsb' 12 4 ∧ fieldKK w = fieldKK c := by
  subst h; constructor <;> (ext k hk; interval_cases k <;> simp [fieldKK])

/-- The bytes of a word, put together again, are the word (rule R43). -/
theorem wordOfBytes_bytesOfWord (w : Word) : wordOfBytes (w.extractLsb' 8 8) (w.extractLsb' 0 8) = w := by
  simp only [wordOfBytes]
  ext k hk; interval_cases k <;> simp

/-- The word of two bytes as a number (rule R43). -/
theorem wordOfBytes_toNat (hi lo : Byte) : (wordOfBytes hi lo).toNat = hi.toNat * 256 + lo.toNat := by
  have h1 := hi.isLt
  have h2 := lo.isLt
  have e : hi.toNat <<< 8 ||| lo.toNat = hi.toNat <<< 8 + lo.toNat := Nat.shiftLeft_add_eq_or_of_lt h2 _ |>.symm
  simp only [wordOfBytes, BitVec.toNat_or, BitVec.toNat_shiftLeft, BitVec.toNat_setWidth]
  rw [Nat.mod_eq_of_lt (a := hi.toNat) (by omega), Nat.mod_eq_of_lt (a := lo.toNat) (by omega),
    Nat.mod_eq_of_lt (a := hi.toNat <<< 8) (by rw [Nat.shiftLeft_eq]; omega), e, Nat.shiftLeft_eq]

/-- No word matches two rows of the opcode map (rule R65): two rows differ in a bit both fix. -/
theorem opcodeRows_disjoint :
    opcodeRows.Pairwise (fun r q => (r.mask &&& q.mask) &&& (r.code ^^^ q.code) ≠ 0) := by decide

end Sys2Proof
end

