-- ==== Sys2Proof/Laws/State.lean ====
section
/-! SUPPORT. The small lemmas of the state updates: for each update, every field it leaves and the field it writes. -/

namespace Sys2Proof.Machine
variable (s : State)

@[simp] theorem State.setReg_v (r : Nibble) (b : Byte) : (s.setReg r b).v = s.v.set r.toNat b r.isLt := rfl
@[simp] theorem State.setReg_i (r : Nibble) (b : Byte) : (s.setReg r b).i = s.i := rfl
@[simp] theorem State.setReg_pc (r : Nibble) (b : Byte) : (s.setReg r b).pc = s.pc := rfl
@[simp] theorem State.setReg_stack (r : Nibble) (b : Byte) : (s.setReg r b).stack = s.stack := rfl
@[simp] theorem State.setReg_dt (r : Nibble) (b : Byte) : (s.setReg r b).dt = s.dt := rfl
@[simp] theorem State.setReg_st (r : Nibble) (b : Byte) : (s.setReg r b).st = s.st := rfl
@[simp] theorem State.setReg_key (r : Nibble) (b : Byte) : (s.setReg r b).key = s.key := rfl
@[simp] theorem State.setReg_mem (r : Nibble) (b : Byte) : (s.setReg r b).mem = s.mem := rfl
@[simp] theorem State.setReg_run (r : Nibble) (b : Byte) : (s.setReg r b).run = s.run := rfl
@[simp] theorem State.setReg_err (r : Nibble) (b : Byte) : (s.setReg r b).err = s.err := rfl
@[simp] theorem State.setReg_draws (r : Nibble) (b : Byte) : (s.setReg r b).draws = s.draws := rfl

@[simp] theorem State.setI_v (a : Word) : (s.setI a).v = s.v := rfl
@[simp] theorem State.setI_i (a : Word) : (s.setI a).i = a := rfl
@[simp] theorem State.setI_pc (a : Word) : (s.setI a).pc = s.pc := rfl
@[simp] theorem State.setI_stack (a : Word) : (s.setI a).stack = s.stack := rfl
@[simp] theorem State.setI_dt (a : Word) : (s.setI a).dt = s.dt := rfl
@[simp] theorem State.setI_st (a : Word) : (s.setI a).st = s.st := rfl
@[simp] theorem State.setI_key (a : Word) : (s.setI a).key = s.key := rfl
@[simp] theorem State.setI_mem (a : Word) : (s.setI a).mem = s.mem := rfl
@[simp] theorem State.setI_run (a : Word) : (s.setI a).run = s.run := rfl
@[simp] theorem State.setI_err (a : Word) : (s.setI a).err = s.err := rfl
@[simp] theorem State.setI_draws (a : Word) : (s.setI a).draws = s.draws := rfl

@[simp] theorem State.setPc_v (a : Word) : (s.setPc a).v = s.v := rfl
@[simp] theorem State.setPc_i (a : Word) : (s.setPc a).i = s.i := rfl
@[simp] theorem State.setPc_pc (a : Word) : (s.setPc a).pc = a := rfl
@[simp] theorem State.setPc_stack (a : Word) : (s.setPc a).stack = s.stack := rfl
@[simp] theorem State.setPc_dt (a : Word) : (s.setPc a).dt = s.dt := rfl
@[simp] theorem State.setPc_st (a : Word) : (s.setPc a).st = s.st := rfl
@[simp] theorem State.setPc_key (a : Word) : (s.setPc a).key = s.key := rfl
@[simp] theorem State.setPc_mem (a : Word) : (s.setPc a).mem = s.mem := rfl
@[simp] theorem State.setPc_run (a : Word) : (s.setPc a).run = s.run := rfl
@[simp] theorem State.setPc_err (a : Word) : (s.setPc a).err = s.err := rfl
@[simp] theorem State.setPc_draws (a : Word) : (s.setPc a).draws = s.draws := rfl

@[simp] theorem State.setDt_v (b : Byte) : (s.setDt b).v = s.v := rfl
@[simp] theorem State.setDt_i (b : Byte) : (s.setDt b).i = s.i := rfl
@[simp] theorem State.setDt_pc (b : Byte) : (s.setDt b).pc = s.pc := rfl
@[simp] theorem State.setDt_stack (b : Byte) : (s.setDt b).stack = s.stack := rfl
@[simp] theorem State.setDt_dt (b : Byte) : (s.setDt b).dt = b := rfl
@[simp] theorem State.setDt_st (b : Byte) : (s.setDt b).st = s.st := rfl
@[simp] theorem State.setDt_key (b : Byte) : (s.setDt b).key = s.key := rfl
@[simp] theorem State.setDt_mem (b : Byte) : (s.setDt b).mem = s.mem := rfl
@[simp] theorem State.setDt_run (b : Byte) : (s.setDt b).run = s.run := rfl
@[simp] theorem State.setDt_err (b : Byte) : (s.setDt b).err = s.err := rfl
@[simp] theorem State.setDt_draws (b : Byte) : (s.setDt b).draws = s.draws := rfl

@[simp] theorem State.setSt_v (b : Byte) : (s.setSt b).v = s.v := rfl
@[simp] theorem State.setSt_i (b : Byte) : (s.setSt b).i = s.i := rfl
@[simp] theorem State.setSt_pc (b : Byte) : (s.setSt b).pc = s.pc := rfl
@[simp] theorem State.setSt_stack (b : Byte) : (s.setSt b).stack = s.stack := rfl
@[simp] theorem State.setSt_dt (b : Byte) : (s.setSt b).dt = s.dt := rfl
@[simp] theorem State.setSt_st (b : Byte) : (s.setSt b).st = b := rfl
@[simp] theorem State.setSt_key (b : Byte) : (s.setSt b).key = s.key := rfl
@[simp] theorem State.setSt_mem (b : Byte) : (s.setSt b).mem = s.mem := rfl
@[simp] theorem State.setSt_run (b : Byte) : (s.setSt b).run = s.run := rfl
@[simp] theorem State.setSt_err (b : Byte) : (s.setSt b).err = s.err := rfl
@[simp] theorem State.setSt_draws (b : Byte) : (s.setSt b).draws = s.draws := rfl

@[simp] theorem State.store_v (a : Nat) (bs : List Byte) : (s.store a bs).v = s.v := rfl
@[simp] theorem State.store_i (a : Nat) (bs : List Byte) : (s.store a bs).i = s.i := rfl
@[simp] theorem State.store_pc (a : Nat) (bs : List Byte) : (s.store a bs).pc = s.pc := rfl
@[simp] theorem State.store_stack (a : Nat) (bs : List Byte) : (s.store a bs).stack = s.stack := rfl
@[simp] theorem State.store_dt (a : Nat) (bs : List Byte) : (s.store a bs).dt = s.dt := rfl
@[simp] theorem State.store_st (a : Nat) (bs : List Byte) : (s.store a bs).st = s.st := rfl
@[simp] theorem State.store_key (a : Nat) (bs : List Byte) : (s.store a bs).key = s.key := rfl
@[simp] theorem State.store_mem (a : Nat) (bs : List Byte) : (s.store a bs).mem = s.mem.writeBytes a bs := rfl
@[simp] theorem State.store_run (a : Nat) (bs : List Byte) : (s.store a bs).run = s.run := rfl
@[simp] theorem State.store_err (a : Nat) (bs : List Byte) : (s.store a bs).err = s.err := rfl
@[simp] theorem State.store_draws (a : Nat) (bs : List Byte) : (s.store a bs).draws = s.draws := rfl

@[simp] theorem State.push_v (a : Word) : (s.push a).v = s.v := rfl
@[simp] theorem State.push_i (a : Word) : (s.push a).i = s.i := rfl
@[simp] theorem State.push_pc (a : Word) : (s.push a).pc = s.pc := rfl
@[simp] theorem State.push_stack (a : Word) : (s.push a).stack = s.stack ++ [a] := rfl
@[simp] theorem State.push_dt (a : Word) : (s.push a).dt = s.dt := rfl
@[simp] theorem State.push_st (a : Word) : (s.push a).st = s.st := rfl
@[simp] theorem State.push_key (a : Word) : (s.push a).key = s.key := rfl
@[simp] theorem State.push_mem (a : Word) : (s.push a).mem = s.mem := rfl
@[simp] theorem State.push_run (a : Word) : (s.push a).run = s.run := rfl
@[simp] theorem State.push_err (a : Word) : (s.push a).err = s.err := rfl
@[simp] theorem State.push_draws (a : Word) : (s.push a).draws = s.draws := rfl

@[simp] theorem State.dropNewest_v : (s.dropNewest).v = s.v := rfl
@[simp] theorem State.dropNewest_i : (s.dropNewest).i = s.i := rfl
@[simp] theorem State.dropNewest_pc : (s.dropNewest).pc = s.pc := rfl
@[simp] theorem State.dropNewest_stack : (s.dropNewest).stack = s.stack.dropLast := rfl
@[simp] theorem State.dropNewest_dt : (s.dropNewest).dt = s.dt := rfl
@[simp] theorem State.dropNewest_st : (s.dropNewest).st = s.st := rfl
@[simp] theorem State.dropNewest_key : (s.dropNewest).key = s.key := rfl
@[simp] theorem State.dropNewest_mem : (s.dropNewest).mem = s.mem := rfl
@[simp] theorem State.dropNewest_run : (s.dropNewest).run = s.run := rfl
@[simp] theorem State.dropNewest_err : (s.dropNewest).err = s.err := rfl
@[simp] theorem State.dropNewest_draws : (s.dropNewest).draws = s.draws := rfl

@[simp] theorem State.halt_v (f : Fault) (info : Word) : (s.halt f info).v = s.v := rfl
@[simp] theorem State.halt_i (f : Fault) (info : Word) : (s.halt f info).i = s.i := rfl
@[simp] theorem State.halt_pc (f : Fault) (info : Word) : (s.halt f info).pc = s.pc := rfl
@[simp] theorem State.halt_stack (f : Fault) (info : Word) : (s.halt f info).stack = s.stack := rfl
@[simp] theorem State.halt_dt (f : Fault) (info : Word) : (s.halt f info).dt = s.dt := rfl
@[simp] theorem State.halt_st (f : Fault) (info : Word) : (s.halt f info).st = s.st := rfl
@[simp] theorem State.halt_key (f : Fault) (info : Word) : (s.halt f info).key = s.key := rfl
@[simp] theorem State.halt_mem (f : Fault) (info : Word) : (s.halt f info).mem = s.mem := rfl
@[simp] theorem State.halt_run (f : Fault) (info : Word) : (s.halt f info).run = .halted := rfl
@[simp] theorem State.halt_err (f : Fault) (info : Word) : (s.halt f info).err = ⟨f.code, info⟩ := rfl
@[simp] theorem State.halt_draws (f : Fault) (info : Word) : (s.halt f info).draws = s.draws := rfl

@[simp] theorem State.advance_v : (s.advance).v = s.v := rfl
@[simp] theorem State.advance_i : (s.advance).i = s.i := rfl
@[simp] theorem State.advance_pc : (s.advance).pc = s.pc + 2 := rfl
@[simp] theorem State.advance_stack : (s.advance).stack = s.stack := rfl
@[simp] theorem State.advance_dt : (s.advance).dt = s.dt := rfl
@[simp] theorem State.advance_st : (s.advance).st = s.st := rfl
@[simp] theorem State.advance_key : (s.advance).key = s.key := rfl
@[simp] theorem State.advance_mem : (s.advance).mem = s.mem := rfl
@[simp] theorem State.advance_run : (s.advance).run = s.run := rfl
@[simp] theorem State.advance_err : (s.advance).err = s.err := rfl
@[simp] theorem State.advance_draws : (s.advance).draws = s.draws := rfl

@[simp] theorem State.tick_v : (s.tick).v = s.v := rfl
@[simp] theorem State.tick_i : (s.tick).i = s.i := rfl
@[simp] theorem State.tick_pc : (s.tick).pc = s.pc := rfl
@[simp] theorem State.tick_stack : (s.tick).stack = s.stack := rfl
@[simp] theorem State.tick_dt : (s.tick).dt = tickDown s.dt := rfl
@[simp] theorem State.tick_st : (s.tick).st = tickDown s.st := rfl
@[simp] theorem State.tick_key : (s.tick).key = s.key := rfl
@[simp] theorem State.tick_mem : (s.tick).mem = s.mem := rfl
@[simp] theorem State.tick_run : (s.tick).run = s.run := rfl
@[simp] theorem State.tick_err : (s.tick).err = s.err := rfl
@[simp] theorem State.tick_draws : (s.tick).draws = s.draws := rfl

@[simp] theorem State.toExecute_v : (s.toExecute).v = s.v := rfl
@[simp] theorem State.toExecute_i : (s.toExecute).i = s.i := rfl
@[simp] theorem State.toExecute_pc : (s.toExecute).pc = s.pc + 2 := rfl
@[simp] theorem State.toExecute_stack : (s.toExecute).stack = s.stack := rfl
@[simp] theorem State.toExecute_dt : (s.toExecute).dt = tickDown s.dt := rfl
@[simp] theorem State.toExecute_st : (s.toExecute).st = tickDown s.st := rfl
@[simp] theorem State.toExecute_key : (s.toExecute).key = s.key := rfl
@[simp] theorem State.toExecute_mem : (s.toExecute).mem = s.mem := rfl
@[simp] theorem State.toExecute_run : (s.toExecute).run = s.run := rfl
@[simp] theorem State.toExecute_err : (s.toExecute).err = s.err := rfl
@[simp] theorem State.toExecute_draws : (s.toExecute).draws = s.draws := rfl

@[simp] theorem State.commit_v (fb : List Byte) : (s.commit fb).v = s.v := rfl
@[simp] theorem State.commit_i (fb : List Byte) : (s.commit fb).i = s.i := rfl
@[simp] theorem State.commit_pc (fb : List Byte) : (s.commit fb).pc = s.pc := rfl
@[simp] theorem State.commit_stack (fb : List Byte) : (s.commit fb).stack = s.stack := rfl
@[simp] theorem State.commit_dt (fb : List Byte) : (s.commit fb).dt = s.dt := rfl
@[simp] theorem State.commit_st (fb : List Byte) : (s.commit fb).st = s.st := rfl
@[simp] theorem State.commit_key (fb : List Byte) : (s.commit fb).key = s.key := rfl
@[simp] theorem State.commit_mem (fb : List Byte) : (s.commit fb).mem = s.mem.writeBytes Config.displayBase fb := rfl
@[simp] theorem State.commit_run (fb : List Byte) : (s.commit fb).run = s.run := rfl
@[simp] theorem State.commit_err (fb : List Byte) : (s.commit fb).err = s.err := rfl
@[simp] theorem State.commit_draws (fb : List Byte) : (s.commit fb).draws = s.draws := rfl

@[simp] theorem State.setKey_v (k : Nibble) (p : Bool) : (s.setKey k p).v = s.v := rfl
@[simp] theorem State.setKey_i (k : Nibble) (p : Bool) : (s.setKey k p).i = s.i := rfl
@[simp] theorem State.setKey_pc (k : Nibble) (p : Bool) : (s.setKey k p).pc = s.pc := rfl
@[simp] theorem State.setKey_stack (k : Nibble) (p : Bool) : (s.setKey k p).stack = s.stack := rfl
@[simp] theorem State.setKey_dt (k : Nibble) (p : Bool) : (s.setKey k p).dt = s.dt := rfl
@[simp] theorem State.setKey_st (k : Nibble) (p : Bool) : (s.setKey k p).st = s.st := rfl
@[simp] theorem State.setKey_key (k : Nibble) (p : Bool) : (s.setKey k p).key = s.key.set k.toNat p k.isLt := rfl
@[simp] theorem State.setKey_mem (k : Nibble) (p : Bool) : (s.setKey k p).mem = s.mem := rfl
@[simp] theorem State.setKey_run (k : Nibble) (p : Bool) : (s.setKey k p).run = s.run := rfl
@[simp] theorem State.setKey_err (k : Nibble) (p : Bool) : (s.setKey k p).err = s.err := rfl
@[simp] theorem State.setKey_draws (k : Nibble) (p : Bool) : (s.setKey k p).draws = s.draws := rfl

@[simp] theorem State.resetKeyboard_v : (s.resetKeyboard).v = s.v := rfl
@[simp] theorem State.resetKeyboard_i : (s.resetKeyboard).i = s.i := rfl
@[simp] theorem State.resetKeyboard_pc : (s.resetKeyboard).pc = s.pc := rfl
@[simp] theorem State.resetKeyboard_stack : (s.resetKeyboard).stack = s.stack := rfl
@[simp] theorem State.resetKeyboard_dt : (s.resetKeyboard).dt = s.dt := rfl
@[simp] theorem State.resetKeyboard_st : (s.resetKeyboard).st = s.st := rfl
@[simp] theorem State.resetKeyboard_key : (s.resetKeyboard).key = Vector.replicate 16 false := rfl
@[simp] theorem State.resetKeyboard_mem : (s.resetKeyboard).mem = s.mem := rfl
@[simp] theorem State.resetKeyboard_run : (s.resetKeyboard).run = s.run := rfl
@[simp] theorem State.resetKeyboard_err : (s.resetKeyboard).err = s.err := rfl
@[simp] theorem State.resetKeyboard_draws : (s.resetKeyboard).draws = s.draws := rfl

@[simp] theorem State.loadRange_i (x : Nibble) (a : Nat) : (s.loadRange x a).i = s.i := rfl
@[simp] theorem State.loadRange_pc (x : Nibble) (a : Nat) : (s.loadRange x a).pc = s.pc := rfl
@[simp] theorem State.loadRange_stack (x : Nibble) (a : Nat) : (s.loadRange x a).stack = s.stack := rfl
@[simp] theorem State.loadRange_dt (x : Nibble) (a : Nat) : (s.loadRange x a).dt = s.dt := rfl
@[simp] theorem State.loadRange_st (x : Nibble) (a : Nat) : (s.loadRange x a).st = s.st := rfl
@[simp] theorem State.loadRange_key (x : Nibble) (a : Nat) : (s.loadRange x a).key = s.key := rfl
@[simp] theorem State.loadRange_mem (x : Nibble) (a : Nat) : (s.loadRange x a).mem = s.mem := rfl
@[simp] theorem State.loadRange_run (x : Nibble) (a : Nat) : (s.loadRange x a).run = s.run := rfl
@[simp] theorem State.loadRange_err (x : Nibble) (a : Nat) : (s.loadRange x a).err = s.err := rfl
@[simp] theorem State.loadRange_draws (x : Nibble) (a : Nat) : (s.loadRange x a).draws = s.draws := rfl

@[simp] theorem State.draw_v : s.draw.2.v = s.v := rfl
@[simp] theorem State.draw_i : s.draw.2.i = s.i := rfl
@[simp] theorem State.draw_pc : s.draw.2.pc = s.pc := rfl
@[simp] theorem State.draw_stack : s.draw.2.stack = s.stack := rfl
@[simp] theorem State.draw_dt : s.draw.2.dt = s.dt := rfl
@[simp] theorem State.draw_st : s.draw.2.st = s.st := rfl
@[simp] theorem State.draw_key : s.draw.2.key = s.key := rfl
@[simp] theorem State.draw_mem : s.draw.2.mem = s.mem := rfl
@[simp] theorem State.draw_run : s.draw.2.run = s.run := rfl
@[simp] theorem State.draw_err : s.draw.2.err = s.err := rfl
@[simp] theorem State.draw_draws : s.draw.2.draws = s.draws + 1 := rfl
@[simp] theorem State.draw_byte : s.draw.1 = Config.randomByte s.draws := rfl

/-! Reading a register after an update. -/

@[simp] theorem State.reg_setReg_self (r : Nibble) (b : Byte) : (s.setReg r b).reg r = b := by
  simp [State.reg]

theorem State.reg_setReg_of_ne {r q : Nibble} (h : q ≠ r) (b : Byte) : (s.setReg r b).reg q = s.reg q := by
  have h' : r.toNat ≠ q.toNat := fun e => h (BitVec.eq_of_toNat_eq e.symm)
  simp [State.reg, Vector.getElem_set_ne _ _ h']

/-- Reading any register after a write of one. -/
theorem State.reg_setReg (r q : Nibble) (b : Byte) : (s.setReg r b).reg q = if q = r then b else s.reg q := by
  split
  · next h => subst h; simp
  · next h => exact s.reg_setReg_of_ne h b

@[simp] theorem State.reg_setI (q : Nibble) (a : Word) : (s.setI a).reg q = s.reg q := rfl
@[simp] theorem State.reg_setPc (q : Nibble) (a : Word) : (s.setPc a).reg q = s.reg q := rfl
@[simp] theorem State.reg_setDt (q : Nibble) (b : Byte) : (s.setDt b).reg q = s.reg q := rfl
@[simp] theorem State.reg_setSt (q : Nibble) (b : Byte) : (s.setSt b).reg q = s.reg q := rfl
@[simp] theorem State.reg_store (q : Nibble) (a : Nat) (bs : List Byte) : (s.store a bs).reg q = s.reg q := rfl
@[simp] theorem State.reg_push (q : Nibble) (a : Word) : (s.push a).reg q = s.reg q := rfl
@[simp] theorem State.reg_dropNewest (q : Nibble) : (s.dropNewest).reg q = s.reg q := rfl
@[simp] theorem State.reg_halt (q : Nibble) (f : Fault) (info : Word) : (s.halt f info).reg q = s.reg q := rfl
@[simp] theorem State.reg_advance (q : Nibble) : (s.advance).reg q = s.reg q := rfl
@[simp] theorem State.reg_tick (q : Nibble) : (s.tick).reg q = s.reg q := rfl
@[simp] theorem State.reg_toExecute (q : Nibble) : (s.toExecute).reg q = s.reg q := rfl
@[simp] theorem State.reg_commit (q : Nibble) (fb : List Byte) : (s.commit fb).reg q = s.reg q := rfl
@[simp] theorem State.reg_setKey (q : Nibble) (k : Nibble) (p : Bool) : (s.setKey k p).reg q = s.reg q := rfl
@[simp] theorem State.reg_resetKeyboard (q : Nibble) : (s.resetKeyboard).reg q = s.reg q := rfl
@[simp] theorem State.reg_draw (q : Nibble) : s.draw.2.reg q = s.reg q := rfl

/-- Reading a register after a block load (rule R134). -/
theorem State.reg_loadRange (x q : Nibble) (a : Nat) :
    (s.loadRange x a).reg q = if q.toNat ≤ x.toNat then s.mem.read (a + q.toNat) else s.reg q := by
  simp [State.reg, State.loadRange, rangeSize]

/-- A result and a flag (rules R13, R91): `VF` ends as the flag whatever the result register is. -/
theorem State.reg_setResultAndFlag (x q : Nibble) (b f : Byte) :
    (s.setResultAndFlag x b f).reg q = if q = vf then f else if q = x then b else s.reg q := by
  simp [State.setResultAndFlag, State.reg_setReg]

@[simp] theorem State.setResultAndFlag_i (x : Nibble) (b c : Byte) : (s.setResultAndFlag x b c).i = s.i := rfl
@[simp] theorem State.setResultAndFlag_pc (x : Nibble) (b c : Byte) : (s.setResultAndFlag x b c).pc = s.pc := rfl
@[simp] theorem State.setResultAndFlag_stack (x : Nibble) (b c : Byte) : (s.setResultAndFlag x b c).stack = s.stack := rfl
@[simp] theorem State.setResultAndFlag_dt (x : Nibble) (b c : Byte) : (s.setResultAndFlag x b c).dt = s.dt := rfl
@[simp] theorem State.setResultAndFlag_st (x : Nibble) (b c : Byte) : (s.setResultAndFlag x b c).st = s.st := rfl
@[simp] theorem State.setResultAndFlag_key (x : Nibble) (b c : Byte) : (s.setResultAndFlag x b c).key = s.key := rfl
@[simp] theorem State.setResultAndFlag_mem (x : Nibble) (b c : Byte) : (s.setResultAndFlag x b c).mem = s.mem := rfl
@[simp] theorem State.setResultAndFlag_run (x : Nibble) (b c : Byte) : (s.setResultAndFlag x b c).run = s.run := rfl
@[simp] theorem State.setResultAndFlag_err (x : Nibble) (b c : Byte) : (s.setResultAndFlag x b c).err = s.err := rfl
@[simp] theorem State.setResultAndFlag_draws (x : Nibble) (b c : Byte) : (s.setResultAndFlag x b c).draws = s.draws := rfl

/-- Reading a key after one is set (rule R205). -/
theorem State.keyAt_setKey (k q : Nibble) (p : Bool) : (s.setKey k p).keyAt q = if q = k then p else s.keyAt q := by
  split
  · next h => subst h; simp [State.keyAt]
  · next h =>
    have h' : k.toNat ≠ q.toNat := fun e => h (BitVec.eq_of_toNat_eq e.symm)
    simp [State.keyAt, Vector.getElem_set_ne _ _ h']

/-- Two states with the same registers read alike have the same register file. -/
theorem State.v_ext {t : State} (h : ∀ r : Nibble, t.reg r = s.reg r) : t.v = s.v := by
  apply Vector.ext
  intro k hk
  have e := h (BitVec.ofNat 4 k)
  simpa [State.reg, Nat.mod_eq_of_lt hk] using e

end Sys2Proof.Machine
end

