-- ==== Sys2Proof/Laws/Memory.lean ====
section
/-! SUPPORT. The laws of memory: what a byte reads as after each operation, that every operation keeps the canonical form,
and that the canonical form is unique. -/

namespace Sys2Proof.Machine

/-! ### Reading after an operation -/

@[simp] theorem Memory.read_nil (a : Nat) : Memory.read [] a = 0 := rfl

theorem Memory.read_erase (m : Memory) (a k : Nat) : (m.erase a).read k = if k = a then 0 else m.read k := by
  induction m with
  | nil => simp [Memory.erase]
  | cons c m ih =>
    obtain ⟨d, b⟩ := c
    simp only [Memory.erase] at ih
    by_cases hd : d = a
    · subst hd
      simp only [Memory.erase, Memory.read, List.filter_cons, bne_self_eq_false, Bool.false_eq_true, if_false, ih]
      split
      · rfl
      · next h => rw [if_neg (Ne.symm h)]
    · simp only [Memory.erase, Memory.read, List.filter_cons, bne_iff_ne, ne_eq, hd, not_false_eq_true, if_true, ih]
      by_cases hk : d = k
      · subst hk; simp [hd]
      · simp [hk]

theorem Memory.read_insert (m : Memory) (a k : Nat) (b : Byte) :
    (m.insert a b).read k = if k = a then b else m.read k := by
  induction m with
  | nil => simp [Memory.insert, Memory.read, eq_comm, Config.ramReset]
  | cons c m ih =>
    obtain ⟨d, e⟩ := c
    simp only [Memory.insert]
    by_cases hd : d < a
    · simp only [hd, if_true, Memory.read, ih]
      by_cases hk : d = k
      · have : k ≠ a := by omega
        simp [hk, this]
      · simp [hk]
    · simp only [hd, if_false, Memory.read]
      by_cases hk : a = k
      · simp [hk]
      · simp [hk, Ne.symm hk]

/-- A read after a write: the byte written, and every other byte as before (rule R45). -/
theorem Memory.read_write (m : Memory) (a k : Nat) (b : Byte) :
    (m.write a b).read k = if k = a then b else m.read k := by
  unfold Memory.write
  split
  · next h => rw [Memory.read_erase, h]; rfl
  · rw [Memory.read_insert, Memory.read_erase]
    split <;> simp_all

/-- A read after writing a run of bytes (rule R5, `MemWrite`). -/
theorem Memory.read_writeBytes (m : Memory) (a k : Nat) (bs : List Byte) :
    (m.writeBytes a bs).read k = if a ≤ k ∧ k < a + bs.length then bs.getD (k - a) 0 else m.read k := by
  induction bs generalizing m a with
  | nil => simp [Memory.writeBytes]
  | cons b bs ih =>
    rw [Memory.writeBytes, ih, Memory.read_write, List.length_cons]
    by_cases hk : k = a
    · subst hk; simp
    · by_cases h : a + 1 ≤ k ∧ k < a + 1 + bs.length
      · have h' : a ≤ k ∧ k < a + (bs.length + 1) := by omega
        obtain ⟨d, rfl⟩ : ∃ d, k = a + 1 + d := ⟨k - (a + 1), by omega⟩
        have e1 : a + 1 + d - (a + 1) = d := by omega
        have e2 : a + 1 + d - a = d + 1 := by omega
        rw [if_pos h, if_pos h', e1, e2, List.getD_cons_succ]
      · have h' : ¬(a ≤ k ∧ k < a + (bs.length + 1)) := by omega
        rw [if_neg h, if_neg h', if_neg hk]

/-- Outside the run every byte is as before. -/
theorem Memory.read_writeBytes_of_outside (m : Memory) {a k : Nat} (bs : List Byte) (h : k < a ∨ a + bs.length ≤ k) :
    (m.writeBytes a bs).read k = m.read k := by
  rw [Memory.read_writeBytes, if_neg (by omega)]

@[simp] theorem Memory.length_readBytes (m : Memory) (a n : Nat) : (m.readBytes a n).length = n := by
  simp [Memory.readBytes]

@[simp] theorem Memory.getElem_readBytes (m : Memory) (a n k : Nat) (h : k < (m.readBytes a n).length) :
    (m.readBytes a n)[k] = m.read (a + k) := by
  simp [Memory.readBytes]

theorem Memory.getD_readBytes (m : Memory) (a n k : Nat) (h : k < n) : (m.readBytes a n).getD k 0 = m.read (a + k) := by
  rw [List.getD_eq_getElem _ _ (by simpa using h), Memory.getElem_readBytes]

/-- Writing back what a region holds changes no byte (rule R182). -/
theorem Memory.read_writeBytes_readBytes (m : Memory) (a n k : Nat) :
    (m.writeBytes a (m.readBytes a n)).read k = m.read k := by
  rw [Memory.read_writeBytes, Memory.length_readBytes]
  split
  · next h => rw [Memory.getD_readBytes _ _ _ _ (by omega)]; congr 1; omega
  · rfl

/-! ### The canonical form -/

theorem Memory.wf_cons {a : Nat} {b : Byte} {m : Memory} :
    Memory.wf ((a, b) :: m) = true ↔ a < 4096 ∧ b ≠ 0 ∧ (∀ c ∈ m, a < c.1) ∧ Memory.wf m = true := by
  simp only [Memory.wf, Bool.and_eq_true, decide_eq_true_eq, bne_iff_ne, List.all_eq_true, and_assoc]
  rfl

@[simp] theorem Memory.wf_nil : Memory.wf [] = true := rfl

theorem Memory.wf_erase {m : Memory} (a : Nat) (h : m.wf = true) : (m.erase a).wf = true := by
  induction m with
  | nil => rfl
  | cons c m ih =>
    obtain ⟨d, b⟩ := c
    obtain ⟨h1, h2, h3, h4⟩ := Memory.wf_cons.1 h
    by_cases hd : d = a
    · simpa [Memory.erase, hd] using ih h4
    · have e : Memory.erase ((d, b) :: m) a = (d, b) :: Memory.erase m a := by
        simp [Memory.erase, hd]
      rw [e]
      exact Memory.wf_cons.2 ⟨h1, h2, fun c hc => h3 c (List.mem_filter.1 hc).1, ih h4⟩

theorem Memory.mem_insert {m : Memory} {a : Nat} {b : Byte} {c : Host.Cell} :
    c ∈ m.insert a b → c = (a, b) ∨ c ∈ m := by
  induction m with
  | nil => simp [Memory.insert]
  | cons d m ih =>
    simp only [Memory.insert]
    split
    · intro h
      rcases List.mem_cons.1 h with rfl | h
      · simp
      · rcases ih h with h | h <;> simp [h]
    · intro h
      rcases List.mem_cons.1 h with h | h <;> simp_all

theorem Memory.wf_insert {m : Memory} {a : Nat} {b : Byte} (h : m.wf = true) (ha : a < 4096) (hb : b ≠ 0)
    (hn : ∀ c ∈ m, c.1 ≠ a) : (m.insert a b).wf = true := by
  induction m with
  | nil => exact Memory.wf_cons.2 ⟨ha, hb, by simp, rfl⟩
  | cons c m ih =>
    obtain ⟨d, e⟩ := c
    obtain ⟨h1, h2, h3, h4⟩ := Memory.wf_cons.1 h
    have hda : d ≠ a := hn (d, e) (by simp)
    simp only [Memory.insert]
    split
    · next hlt =>
      refine Memory.wf_cons.2 ⟨h1, h2, fun c hc => ?_, ih h4 (fun c hc => hn c (by simp [hc]))⟩
      rcases Memory.mem_insert hc with rfl | hc
      · exact hlt
      · exact h3 c hc
    · next hge =>
      have hlt : a < d := by omega
      refine Memory.wf_cons.2 ⟨ha, hb, fun c hc => ?_, h⟩
      rcases List.mem_cons.1 hc with rfl | hc
      · exact hlt
      · exact lt_trans hlt (h3 c hc)

/-- A write inside the address space keeps the canonical form. -/
theorem Memory.wf_write {m : Memory} {a : Nat} (b : Byte) (h : m.wf = true) (ha : a < 4096) :
    (m.write a b).wf = true := by
  unfold Memory.write
  split
  · exact Memory.wf_erase a h
  · next hb =>
    refine Memory.wf_insert (Memory.wf_erase a h) ha hb (fun c hc => ?_)
    simpa using (List.mem_filter.1 hc).2

/-- A run of writes inside the address space keeps the canonical form. -/
theorem Memory.wf_writeBytes {m : Memory} {a : Nat} (bs : List Byte) (h : m.wf = true) (ha : a + bs.length ≤ 4096) :
    (m.writeBytes a bs).wf = true := by
  induction bs generalizing m a with
  | nil => exact h
  | cons b bs ih =>
    rw [List.length_cons] at ha
    exact ih (Memory.wf_write b h (by omega)) (by omega)

/-- What an unlisted address reads as. -/
theorem Memory.read_of_not_listed {m : Memory} {a : Nat} (h : ∀ c ∈ m, c.1 ≠ a) : m.read a = 0 := by
  induction m with
  | nil => rfl
  | cons c m ih =>
    obtain ⟨d, b⟩ := c
    have : d ≠ a := h (d, b) (by simp)
    rw [Memory.read, if_neg this]
    exact ih (fun c hc => h c (by simp [hc]))

/-- An access range is in range exactly as rule R42 says. -/
theorem inRange_iff (a n : Nat) : inRange a n = true ↔ n = 0 ∨ a + n ≤ 4096 := by
  simp only [inRange, Bool.or_eq_true, beq_iff_eq, decide_eq_true_eq]
  rfl

end Sys2Proof.Machine
end

