-- ==== Sys2Proof/Laws/Ops.lean ====
section
/-! SUPPORT. One lemma for each shared operation that says what it can do, and the inversion of a step. -/

namespace Sys2Proof.Machine

/-! ### Operations -/

@[simp] theorem State.reg_reset (r : Nibble) : State.reset.reg r = 0 := by
  simp [State.reg, State.reset]

@[simp] theorem State.keyAt_reset (k : Nibble) : State.reset.keyAt k = false := by
  simp [State.keyAt, State.reset]

/-- A skip changes nothing but `PC`, and `PC` by two or by nothing (rule R110). -/
theorem skipIf_eq (c : Bool) (s : State) : skipIf c s = { s with pc := if c then s.pc + 2 else s.pc } := by
  cases c <;> rfl

/-- A fault taken in EXECUTE (rules R223, R224). -/
theorem raiseIn_eq (i : Instr) (f : Fault) (s : State) :
    raiseIn i f s = .next { s with run := .halted, err := ⟨f.code, encode i⟩ } := rfl

theorem trunc8_toNat (n : Nat) : (trunc8 n).toNat = n % 256 := by simp [trunc8]

theorem trunc16_toNat (n : Nat) : (trunc16 n).toNat = n % 65536 := by simp [trunc16]

@[simp] theorem zextAddr_toNat (a : Addr) : (zextAddr a).toNat = a.toNat := by
  have := a.isLt
  simp [zextAddr]; omega

@[simp] theorem zextByte_toNat (b : Byte) : (zextByte b).toNat = b.toNat := by
  have := b.isLt
  simp [zextByte]; omega

/-- A timer after one tick (rule R85): one less, never below 0. -/
theorem tickDown_toNat (b : Byte) : (tickDown b).toNat = b.toNat - 1 := by
  unfold tickDown
  split
  · next h => simp [h]
  · next h =>
    have h0 : b.toNat ≠ 0 := fun e => h (BitVec.eq_of_toNat_eq (by simpa using e))
    have := b.isLt
    have h1 : (1 : Byte).toNat = 1 := rfl
    rw [BitVec.toNat_sub, h1]
    omega

theorem flagByte_eq_one (p : Bool) : flagByte p = 1 ↔ p = true := by cases p <;> decide

theorem flagByte_cases (p : Bool) : flagByte p = 0 ∨ flagByte p = 1 := by cases p <;> decide

@[simp] theorem State.length_regRange (s : State) (x : Nibble) : (s.regRange x).length = x.toNat + 1 := by
  have := x.isLt
  simp [State.regRange, rangeSize]; omega

/-- The bytes `Fx55` stores are the registers in order (rule R133). -/
theorem State.getD_regRange (s : State) (x q : Nibble) (h : q.toNat ≤ x.toNat) :
    (s.regRange x).getD q.toNat 0 = s.reg q := by
  have := q.isLt
  rw [List.getD_eq_getElem _ _ (by simp; omega)]
  simp [State.regRange, State.reg]

@[simp] theorem length_decimalDigits (b : Byte) : (decimalDigits b).length = 3 := rfl

/-- The font LOAD installs is the table of rule R46. -/
theorem getD_font : ∀ a < 80, Config.font.getD a 0 = glyphRow (a / 5) (a % 5) := by decide

@[simp] theorem length_framebuffer (s : State) : s.framebuffer.length = 256 := by simp [State.framebuffer]; rfl

/-! ### Fetch and step -/

/-- What the start of a step finds (rules R82, R225). -/
theorem State.fetch_cases (s : State) :
    (s.run = .halted ∧ s.fetch = .idle) ∨ (s.run ≠ .halted ∧ 0xFFE < s.pc.toNat ∧ s.fetch = .beyond) ∨
    (s.run ≠ .halted ∧ s.pc.toNat ≤ 0xFFE ∧ s.fetch = .word s.wordAtPc) := by
  unfold State.fetch
  by_cases h : s.run = .halted
  · simp [h]
  · by_cases hp : s.pc.toNat + 2 ≤ 4096
    · have : inRange s.pc.toNat 2 = true := (inRange_iff _ _).2 (.inr hp)
      simp [h, this]; omega
    · have : inRange s.pc.toNat 2 = false := by
        rw [Bool.eq_false_iff]; intro e; have := (inRange_iff _ _).1 e; omega
      simp [h, this]; omega

/-- Everything a step can do around an EXECUTE phase: a halted step changes nothing, a fetch past the end halts, a word
that is no instruction halts after the advance, and any other word runs. -/
theorem stepBy_cases (execute : Instr → State → Host.Outcome State Fault Refusal) (s : State) :
    (s.run = .halted ∧ stepBy execute s = .next s) ∨
    (s.run ≠ .halted ∧ 0xFFE < s.pc.toNat ∧ stepBy execute s = .next (s.halt .addressOutOfRange s.pc)) ∨
    (s.run ≠ .halted ∧ s.pc.toNat ≤ 0xFFE ∧ decode s.wordAtPc = none ∧
      stepBy execute s = .next (s.toExecute.halt .unknownOpcode s.wordAtPc)) ∨
    (s.run ≠ .halted ∧ s.pc.toNat ≤ 0xFFE ∧
      ∃ i, decode s.wordAtPc = some i ∧ stepBy execute s = execute i s.toExecute) := by
  unfold stepBy
  rcases s.fetch_cases with ⟨h, e⟩ | ⟨h, hp, e⟩ | ⟨h, hp, e⟩
  · simp [h, e, stepHalted]
  · exact .inr (.inl ⟨h, hp, by rw [e]; rfl⟩)
  · rcases hd : decode s.wordAtPc with _ | i
    · exact .inr (.inr (.inl ⟨h, hp, rfl, by simp only [e, hd]; rfl⟩))
    · exact .inr (.inr (.inr ⟨h, hp, i, rfl, by simp only [e, hd]⟩))

/-- Everything a step can do. -/
theorem step_cases (s : State) :
    (s.run = .halted ∧ step s = .next s) ∨
    (s.run ≠ .halted ∧ 0xFFE < s.pc.toNat ∧ step s = .next (s.halt .addressOutOfRange s.pc)) ∨
    (s.run ≠ .halted ∧ s.pc.toNat ≤ 0xFFE ∧ decode s.wordAtPc = none ∧
      step s = .next (s.toExecute.halt .unknownOpcode s.wordAtPc)) ∨
    (s.run ≠ .halted ∧ s.pc.toNat ≤ 0xFFE ∧ ∃ i, decode s.wordAtPc = some i ∧ step s = exec i s.toExecute) :=
  stepBy_cases exec s

/-! ### The random byte -/

@[simp] theorem State.loadRandom_eq (s : State) (x : Nibble) (kk rnd : Byte) :
    s.loadRandom x kk rnd = s.setReg x (rnd &&& kk) := rfl

@[simp] theorem execWith_rnd (rnd : Byte) (x : Nibble) (kk : Byte) (s : State) :
    execWith rnd (.rnd x kk) s = .next (s.setReg x (rnd &&& kk)) := rfl

/-- The byte a STEP carries reaches `Cxkk` alone (rule R204). -/
theorem execWith_eq_exec (rnd : Byte) {i : Instr} (s : State) (h : ∀ x kk, i ≠ .rnd x kk) :
    execWith rnd i s = exec i s := by
  cases i <;> first | rfl | exact absurd rfl (h _ _)

/-- Where no byte is handed over, the next free value stands for it (log 4). -/
theorem exec_rnd (x : Nibble) (kk : Byte) (s : State) :
    exec (.rnd x kk) s =
      .next { s.setReg x (Config.randomByte s.draws &&& kk) with draws := s.draws + 1 } := rfl

/-! ### LOAD -/

/-- Everything a LOAD can do: refused outside `EMPTY`, turned away when it does not fit, or done (rules R202, R252, R253). -/
theorem transactLoad_cases (rom : List Byte) (s : State) :
    (s.run ≠ .empty ∧ transactLoad rom s = .refused .loadNotEmpty) ∨
    (s.run = .empty ∧ 0xF00 < 0x200 + rom.length ∧ transactLoad rom s = .next (s, .memoryFull)) ∨
    (s.run = .empty ∧ 0x200 + rom.length ≤ 0xF00 ∧ transactLoad rom s = .next (s.loaded rom, .ok)) := by
  unfold transactLoad
  by_cases h : s.run = .empty
  · rw [if_pos h]
    by_cases hl : 0x200 + rom.length ≤ 0xF00
    · exact .inr (.inr ⟨h, hl, if_pos (decide_eq_true hl)⟩)
    · exact .inr (.inl ⟨h, by omega, if_neg fun e => hl (of_decide_eq_true e)⟩)
  · exact .inl ⟨h, if_neg h⟩

end Sys2Proof.Machine
end

