-- ==== Sys2Proof/Laws/Display.lean ====
section
/-! SUPPORT. The laws of the display engine: what plotting one pixel, one sprite row and a whole sprite does to every
pixel of the working copy and to the collision (rules R175 to R180), and how the working copy stands in memory. -/

namespace Sys2Proof.Machine

/-! ### The working copy keeps its length -/

theorem Canvas.length_plot (cv : Canvas) (r c : Nat) : (cv.plot r c).fb.length = cv.fb.length := by
  unfold Canvas.plot; split <;> simp

theorem Canvas.length_foldl_plot (l : List Nat) (x0 r : Nat) (b : Byte) (cv : Canvas) :
    (l.foldl (fun cv j => if spriteBit b j then cv.plot r (x0 + j) else cv) cv).fb.length = cv.fb.length := by
  induction l generalizing cv with
  | nil => rfl
  | cons j l ih => rw [List.foldl_cons, ih]; split <;> simp [Canvas.length_plot]

theorem Canvas.length_plotRows (bs : List Byte) (x0 y0 : Nat) (cv : Canvas) :
    (cv.plotRows x0 y0 bs).fb.length = cv.fb.length := by
  induction bs generalizing cv y0 with
  | nil => rfl
  | cons b bs ih => rw [Canvas.plotRows, ih]; exact Canvas.length_foldl_plot _ _ _ _ _

/-- A draw commits 256 bytes (rule R182). -/
theorem State.length_drawn (s : State) (x y n : Nibble) : (s.drawn x y n).fb.length = 256 := by
  rw [State.drawn, Canvas.length_plotRows]; exact length_framebuffer s

/-! ### What each step of a draw does to every pixel -/

theorem getLsbD_one_shiftLeft (k j : Nat) (hj : j < 8) : ((1#8) <<< k).getLsbD j = decide (k = j) := by
  rw [BitVec.getLsbD_shiftLeft]
  simp only [hj, decide_true, Bool.true_and]
  by_cases h : j < k
  · simp [h]; omega
  · rw [BitVec.getLsbD_one]; simp [h]; omega

theorem fbBit_lt (c : Nat) : fbBit c < 8 := by unfold fbBit; omega

theorem rowBytes_eq : Config.rowBytes = 8 := rfl

/-- Plotting turns over the one pixel, if it is on the screen. -/
theorem Canvas.pixelOf_plot (cv : Canvas) (hl : cv.fb.length = 256) {r c r' c' : Nat} (hr : r' < 32) (hc : c' < 64) :
    pixelOf (cv.plot r c).fb r' c' = (pixelOf cv.fb r' c' != decide (r = r' ∧ c = c')) := by
  unfold Canvas.plot
  have hW : Config.displayW = 64 := rfl
  have hH : Config.displayH = 32 := rfl
  split
  · next h =>
    rw [hW, hH] at h
    by_cases hi : fbIndex r c = fbIndex r' c'
    · have hlt : fbIndex r c < cv.fb.length := by rw [hl]; simp only [fbIndex, rowBytes_eq]; omega
      simp only [pixelOf, ← hi, List.getD_eq_getElem?_getD, List.getElem?_set, hlt, if_true, Option.getD_some]
      simp only [fbIndex, rowBytes_eq] at hi
      rw [BitVec.getLsbD_xor, getLsbD_one_shiftLeft _ _ (fbBit_lt _)]
      have : decide (fbBit c = fbBit c') = decide (r = r' ∧ c = c') := by
        rw [decide_eq_decide]; simp only [fbBit]; omega
      rw [this]
    · have : ¬ (r = r' ∧ c = c') := by rintro ⟨rfl, rfl⟩; exact hi rfl
      simp only [pixelOf, List.getD_eq_getElem?_getD, List.getElem?_set, hi, if_false, this, decide_false, Bool.bne_false]
  · next h =>
    rw [hW, hH] at h
    have : ¬ (r = r' ∧ c = c') := by omega
    simp [this]

/-- Plotting the first `n` columns of a sprite row turns over the pixels its set bits cover. -/
theorem Canvas.pixelOf_foldl_plot (n : Nat) (hn : n ≤ 8) (x0 r : Nat) (b : Byte) (cv : Canvas)
    (hl : cv.fb.length = 256) {r' c' : Nat} (hr : r' < 32) (hc : c' < 64) :
    pixelOf ((List.range n).foldl (fun cv j => if spriteBit b j then cv.plot r (x0 + j) else cv) cv).fb r' c' =
      (pixelOf cv.fb r' c' !=
        (decide (r = r') && decide (x0 ≤ c') && decide (c' < x0 + n) && spriteBit b (c' - x0))) := by
  induction n with
  | zero =>
    have : ¬ (x0 ≤ c' ∧ c' < x0) := by omega
    by_cases h1 : x0 ≤ c'
    · simp [h1, show ¬ c' < x0 by omega]
    · simp [h1]
  | succ n ih =>
    have ih := ih (by omega)
    rw [List.range_succ, List.foldl_append, List.foldl_cons, List.foldl_nil]
    split
    · next h =>
      rw [Canvas.pixelOf_plot _ (by rw [Canvas.length_foldl_plot]; exact hl) hr hc, ih]
      by_cases hx : x0 + n = c'
      · subst hx; by_cases hrr : r = r' <;> simp [hrr, h]
      · have e : decide (c' < x0 + (n + 1)) = decide (c' < x0 + n) := by rw [decide_eq_decide]; omega
        simp [hx, e]
    · next h =>
      rw [ih]
      by_cases hx : x0 + n = c'
      · subst hx; simp [h]
      · have e : decide (c' < x0 + (n + 1)) = decide (c' < x0 + n) := by rw [decide_eq_decide]; omega
        simp [e]

/-- A set pixel of the sprite rows `bs` at column `x0` and row `y0` lies at row `r`, column `c`. -/
def rowsCover (bs : List Byte) (x0 y0 r c : Nat) : Bool :=
  decide (y0 ≤ r) && decide (r < y0 + bs.length) && decide (x0 ≤ c) && decide (c < x0 + 8) &&
    spriteBit (bs.getD (r - y0) 0) (c - x0)

theorem rowsCover_cons (b : Byte) (bs : List Byte) (x0 y0 r c : Nat) :
    rowsCover (b :: bs) x0 y0 r c =
      if y0 = r then (decide (x0 ≤ c) && decide (c < x0 + 8) && spriteBit b (c - x0))
      else rowsCover bs x0 (y0 + 1) r c := by
  split
  · next h => subst h; simp [rowsCover]
  · next h =>
    by_cases h1 : y0 ≤ r
    · have e1 : r - y0 = (r - (y0 + 1)) + 1 := by omega
      have e2 : decide (r < y0 + (bs.length + 1)) = decide (r < y0 + 1 + bs.length) := by rw [decide_eq_decide]; omega
      simp only [rowsCover, List.length_cons, e1, List.getD_cons_succ, e2, h1, show y0 + 1 ≤ r by omega]
    · simp [rowsCover, h1, show ¬ y0 + 1 ≤ r by omega]

/-- Plotting a sprite turns over exactly the pixels its set bits cover (rule R177). -/
theorem Canvas.pixelOf_plotRows (bs : List Byte) (x0 y0 : Nat) (cv : Canvas) (hl : cv.fb.length = 256) {r' c' : Nat}
    (hr : r' < 32) (hc : c' < 64) :
    pixelOf (cv.plotRows x0 y0 bs).fb r' c' = (pixelOf cv.fb r' c' != rowsCover bs x0 y0 r' c') := by
  induction bs generalizing cv y0 with
  | nil =>
    have : rowsCover [] x0 y0 r' c' = false := by simp [rowsCover]
    rw [this]; simp [Canvas.plotRows]
  | cons b bs ih =>
    rw [Canvas.plotRows, ih _ _ (by rw [Canvas.plotRow, Canvas.length_foldl_plot]; exact hl), Canvas.plotRow,
      Canvas.pixelOf_foldl_plot 8 (by omega) _ _ _ _ hl hr hc, rowsCover_cons]
    by_cases h : y0 = r'
    · subst h
      have : rowsCover bs x0 (y0 + 1) y0 c' = false := by simp [rowsCover]
      simp [this]
    · simp [h]

/-- Plotting the first `n` columns of a sprite row collides exactly where a covered pixel was set. -/
theorem Canvas.hit_foldl_plot (n : Nat) (hn : n ≤ 8) (x0 r : Nat) (b : Byte) (cv : Canvas) (hl : cv.fb.length = 256) :
    ((List.range n).foldl (fun cv j => if spriteBit b j then cv.plot r (x0 + j) else cv) cv).hit = true ↔
      cv.hit = true ∨ ∃ j < n, spriteBit b j = true ∧ r < 32 ∧ x0 + j < 64 ∧ pixelOf cv.fb r (x0 + j) = true := by
  induction n with
  | zero => simp
  | succ n ih =>
    have ih := ih (by omega)
    rw [List.range_succ, List.foldl_append, List.foldl_cons, List.foldl_nil]
    split
    · next h =>
      rw [Canvas.plot]
      split
      · next h2 =>
        have h2 : r < 32 ∧ x0 + n < 64 := h2
        simp only [Bool.or_eq_true, ih]
        rw [Canvas.pixelOf_foldl_plot n (by omega) _ _ _ _ hl h2.1 h2.2]
        have : ¬ (x0 + n < x0 + n) := by omega
        simp only [this, decide_false, Bool.and_false, Bool.false_and, Bool.bne_false]
        constructor
        · rintro ((h3 | ⟨j, hj, h3⟩) | h3)
          · exact .inl h3
          · exact .inr ⟨j, by omega, h3⟩
          · exact .inr ⟨n, by omega, h, h2.1, h2.2, h3⟩
        · rintro (h3 | ⟨j, hj, h3⟩)
          · exact .inl (.inl h3)
          · by_cases e : j = n
            · subst e; exact .inr h3.2.2.2
            · exact .inl (.inr ⟨j, by omega, h3⟩)
      · next h2 =>
        have h2 : ¬ (r < 32 ∧ x0 + n < 64) := h2
        rw [ih]
        constructor
        · rintro (h3 | ⟨j, hj, h3⟩)
          · exact .inl h3
          · exact .inr ⟨j, by omega, h3⟩
        · rintro (h3 | ⟨j, hj, h3⟩)
          · exact .inl h3
          · by_cases e : j = n
            · subst e; exact absurd ⟨h3.2.1, h3.2.2.1⟩ h2
            · exact .inr ⟨j, by omega, h3⟩
    · next h =>
      rw [ih]
      constructor
      · rintro (h3 | ⟨j, hj, h3⟩)
        · exact .inl h3
        · exact .inr ⟨j, by omega, h3⟩
      · rintro (h3 | ⟨j, hj, h3⟩)
        · exact .inl h3
        · by_cases e : j = n
          · subst e; exact absurd h3.1 h
          · exact .inr ⟨j, by omega, h3⟩

/-- A draw collides exactly when a pixel it covers on the screen was set (rule R179). -/
theorem Canvas.hit_plotRows (bs : List Byte) (x0 y0 : Nat) (cv : Canvas) (hl : cv.fb.length = 256) :
    (cv.plotRows x0 y0 bs).hit = true ↔
      cv.hit = true ∨ ∃ r < 32, ∃ c < 64, rowsCover bs x0 y0 r c = true ∧ pixelOf cv.fb r c = true := by
  induction bs generalizing cv y0 with
  | nil =>
    have : ∀ r c, rowsCover [] x0 y0 r c = false := by intro r c; simp [rowsCover]
    simp [Canvas.plotRows, this]
  | cons b bs ih =>
    rw [Canvas.plotRows, ih _ _ (by rw [Canvas.plotRow, Canvas.length_foldl_plot]; exact hl), Canvas.plotRow,
      Canvas.hit_foldl_plot 8 (by omega) _ _ _ _ hl]
    have hz : ∀ c, rowsCover bs x0 (y0 + 1) y0 c = false := by intro c; simp [rowsCover]
    constructor
    · rintro ((h | ⟨j, hj, h1, h2, h3, h4⟩) | ⟨r, hr, c, hc, h1, h2⟩)
      · exact .inl h
      · refine .inr ⟨y0, h2, x0 + j, h3, ?_, h4⟩
        rw [rowsCover_cons, if_pos rfl]; simp [h1, hj]
      · have hne : ¬ y0 = r := by rintro rfl; rw [hz] at h1; cases h1
        refine .inr ⟨r, hr, c, hc, by rw [rowsCover_cons, if_neg hne, h1], ?_⟩
        rw [Canvas.pixelOf_foldl_plot 8 (by omega) _ _ _ _ hl hr hc] at h2
        simpa [hne] using h2
    · rintro (h | ⟨r, hr, c, hc, h1, h2⟩)
      · exact .inl (.inl h)
      · rw [rowsCover_cons] at h1
        split at h1
        · next e =>
          subst e
          simp only [Bool.and_eq_true, decide_eq_true_eq] at h1
          refine .inl (.inr ⟨c - x0, by omega, h1.2, hr, by omega, ?_⟩)
          rwa [show x0 + (c - x0) = c by omega]
        · next e =>
          refine .inr ⟨r, hr, c, hc, h1, ?_⟩
          rw [Canvas.pixelOf_foldl_plot 8 (by omega) _ _ _ _ hl hr hc]
          simpa [e] using h2

/-! ### The working copy and memory (rules R175, R182) -/

theorem State.pixelOf_framebuffer (s : State) {r c : Nat} (hr : r < 32) (hc : c < 64) :
    pixelOf s.framebuffer r c = screenPixel s r c := by
  simp only [pixelOf, screenPixel, fbIndex, rowBytes_eq, fbBit, State.framebuffer]
  have hf : Config.fbBytes = 256 := rfl
  rw [Memory.getD_readBytes _ _ _ _ (show r * 8 + c / 8 < Config.fbBytes by omega)]
  rw [show Config.displayBase = 0xF00 from rfl, ← Nat.add_assoc]

theorem State.screenPixel_commit (s : State) (fb : List Byte) (hl : fb.length = 256) {r c : Nat} (hr : r < 32)
    (hc : c < 64) :
    screenPixel (s.commit fb) r c = pixelOf fb r c := by
  have hd : Config.displayBase = 0xF00 := rfl
  simp only [pixelOf, screenPixel, fbIndex, rowBytes_eq, fbBit, State.commit_mem]
  rw [Memory.read_writeBytes, if_pos (by omega)]
  rw [show 0xF00 + r * 8 + c / 8 - Config.displayBase = r * 8 + c / 8 by omega]

end Sys2Proof.Machine
end

