-- ==== Sys2Proof/Laws/PerInstr.lean ====
section
/-! SUPPORT. Statements about every instruction as syntax, one lemma per constructor: the word of an instruction lies in its
row of the opcode map (rule R66), and its operands fit (rule R63). -/

/-- The word of `i` has exactly the fixed bits of `i`'s row (rule R66). -/
def Sys2Proof.Laws.OpcodeRow.Statement (i : Sys2Proof.Instr) : Prop :=
  Sys2Proof.encode i &&& i.opcode.1 = i.opcode.2

/-- Every operand of `i` fits its field (rules R62, R63). -/
def Sys2Proof.Laws.OperandsFit.Statement (i : Sys2Proof.Instr) : Prop := i.wf = true

namespace Sys2Proof.Laws

theorem nibble_lt (x : Nibble) : x.toNat < 16 := x.isLt
theorem byte_lt (x : Byte) : x.toNat < 256 := x.isLt
theorem addr_lt (x : Addr) : x.toNat < 4096 := x.isLt

end Sys2Proof.Laws

open Sys2Proof in
theorem Sys2Proof.Laws.OpcodeRow.cls : Sys2Proof.Laws.OpcodeRow.Statement .cls := by
  unfold OpcodeRow.Statement; decide

open Sys2Proof in
theorem Sys2Proof.Laws.OpcodeRow.ret : Sys2Proof.Laws.OpcodeRow.Statement .ret := by
  unfold OpcodeRow.Statement; decide

open Sys2Proof in
theorem Sys2Proof.Laws.OpcodeRow.jp (nnn : Addr) : Sys2Proof.Laws.OpcodeRow.Statement (.jp nnn) := by
  simp only [OpcodeRow.Statement, Instr.opcode, encode, packNNN]
  ext k hk; interval_cases k <;> simp

open Sys2Proof in
theorem Sys2Proof.Laws.OpcodeRow.call (nnn : Addr) : Sys2Proof.Laws.OpcodeRow.Statement (.call nnn) := by
  simp only [OpcodeRow.Statement, Instr.opcode, encode, packNNN]
  ext k hk; interval_cases k <;> simp

open Sys2Proof in
theorem Sys2Proof.Laws.OpcodeRow.seImm (x : Nibble) (kk : Byte) : Sys2Proof.Laws.OpcodeRow.Statement (.seImm x kk) := by
  simp only [OpcodeRow.Statement, Instr.opcode, encode, packXKK]
  ext k hk; interval_cases k <;> simp

open Sys2Proof in
theorem Sys2Proof.Laws.OpcodeRow.sneImm (x : Nibble) (kk : Byte) : Sys2Proof.Laws.OpcodeRow.Statement (.sneImm x kk) := by
  simp only [OpcodeRow.Statement, Instr.opcode, encode, packXKK]
  ext k hk; interval_cases k <;> simp

open Sys2Proof in
theorem Sys2Proof.Laws.OpcodeRow.seReg (x y : Nibble) : Sys2Proof.Laws.OpcodeRow.Statement (.seReg x y) := by
  simp only [OpcodeRow.Statement, Instr.opcode, encode, packXYN]
  ext k hk; interval_cases k <;> simp

open Sys2Proof in
theorem Sys2Proof.Laws.OpcodeRow.ldImm (x : Nibble) (kk : Byte) : Sys2Proof.Laws.OpcodeRow.Statement (.ldImm x kk) := by
  simp only [OpcodeRow.Statement, Instr.opcode, encode, packXKK]
  ext k hk; interval_cases k <;> simp

open Sys2Proof in
theorem Sys2Proof.Laws.OpcodeRow.addImm (x : Nibble) (kk : Byte) : Sys2Proof.Laws.OpcodeRow.Statement (.addImm x kk) := by
  simp only [OpcodeRow.Statement, Instr.opcode, encode, packXKK]
  ext k hk; interval_cases k <;> simp

open Sys2Proof in
theorem Sys2Proof.Laws.OpcodeRow.ldReg (x y : Nibble) : Sys2Proof.Laws.OpcodeRow.Statement (.ldReg x y) := by
  simp only [OpcodeRow.Statement, Instr.opcode, encode, packXYN]
  ext k hk; interval_cases k <;> simp

open Sys2Proof in
theorem Sys2Proof.Laws.OpcodeRow.orReg (x y : Nibble) : Sys2Proof.Laws.OpcodeRow.Statement (.orReg x y) := by
  simp only [OpcodeRow.Statement, Instr.opcode, encode, packXYN]
  ext k hk; interval_cases k <;> simp

open Sys2Proof in
theorem Sys2Proof.Laws.OpcodeRow.andReg (x y : Nibble) : Sys2Proof.Laws.OpcodeRow.Statement (.andReg x y) := by
  simp only [OpcodeRow.Statement, Instr.opcode, encode, packXYN]
  ext k hk; interval_cases k <;> simp

open Sys2Proof in
theorem Sys2Proof.Laws.OpcodeRow.xorReg (x y : Nibble) : Sys2Proof.Laws.OpcodeRow.Statement (.xorReg x y) := by
  simp only [OpcodeRow.Statement, Instr.opcode, encode, packXYN]
  ext k hk; interval_cases k <;> simp

open Sys2Proof in
theorem Sys2Proof.Laws.OpcodeRow.addReg (x y : Nibble) : Sys2Proof.Laws.OpcodeRow.Statement (.addReg x y) := by
  simp only [OpcodeRow.Statement, Instr.opcode, encode, packXYN]
  ext k hk; interval_cases k <;> simp

open Sys2Proof in
theorem Sys2Proof.Laws.OpcodeRow.subReg (x y : Nibble) : Sys2Proof.Laws.OpcodeRow.Statement (.subReg x y) := by
  simp only [OpcodeRow.Statement, Instr.opcode, encode, packXYN]
  ext k hk; interval_cases k <;> simp

open Sys2Proof in
theorem Sys2Proof.Laws.OpcodeRow.shr (x y : Nibble) : Sys2Proof.Laws.OpcodeRow.Statement (.shr x y) := by
  simp only [OpcodeRow.Statement, Instr.opcode, encode, packXYN]
  ext k hk; interval_cases k <;> simp

open Sys2Proof in
theorem Sys2Proof.Laws.OpcodeRow.subnReg (x y : Nibble) : Sys2Proof.Laws.OpcodeRow.Statement (.subnReg x y) := by
  simp only [OpcodeRow.Statement, Instr.opcode, encode, packXYN]
  ext k hk; interval_cases k <;> simp

open Sys2Proof in
theorem Sys2Proof.Laws.OpcodeRow.shl (x y : Nibble) : Sys2Proof.Laws.OpcodeRow.Statement (.shl x y) := by
  simp only [OpcodeRow.Statement, Instr.opcode, encode, packXYN]
  ext k hk; interval_cases k <;> simp

open Sys2Proof in
theorem Sys2Proof.Laws.OpcodeRow.sneReg (x y : Nibble) : Sys2Proof.Laws.OpcodeRow.Statement (.sneReg x y) := by
  simp only [OpcodeRow.Statement, Instr.opcode, encode, packXYN]
  ext k hk; interval_cases k <;> simp

open Sys2Proof in
theorem Sys2Proof.Laws.OpcodeRow.ldI (nnn : Addr) : Sys2Proof.Laws.OpcodeRow.Statement (.ldI nnn) := by
  simp only [OpcodeRow.Statement, Instr.opcode, encode, packNNN]
  ext k hk; interval_cases k <;> simp

open Sys2Proof in
theorem Sys2Proof.Laws.OpcodeRow.jpV0 (nnn : Addr) : Sys2Proof.Laws.OpcodeRow.Statement (.jpV0 nnn) := by
  simp only [OpcodeRow.Statement, Instr.opcode, encode, packNNN]
  ext k hk; interval_cases k <;> simp

open Sys2Proof in
theorem Sys2Proof.Laws.OpcodeRow.rnd (x : Nibble) (kk : Byte) : Sys2Proof.Laws.OpcodeRow.Statement (.rnd x kk) := by
  simp only [OpcodeRow.Statement, Instr.opcode, encode, packXKK]
  ext k hk; interval_cases k <;> simp

open Sys2Proof in
theorem Sys2Proof.Laws.OpcodeRow.drw (x y n : Nibble) : Sys2Proof.Laws.OpcodeRow.Statement (.drw x y n) := by
  simp only [OpcodeRow.Statement, Instr.opcode, encode, packXYN]
  ext k hk; interval_cases k <;> simp

open Sys2Proof in
theorem Sys2Proof.Laws.OpcodeRow.skp (x : Nibble) : Sys2Proof.Laws.OpcodeRow.Statement (.skp x) := by
  simp only [OpcodeRow.Statement, Instr.opcode, encode, packXKK]
  ext k hk; interval_cases k <;> simp

open Sys2Proof in
theorem Sys2Proof.Laws.OpcodeRow.sknp (x : Nibble) : Sys2Proof.Laws.OpcodeRow.Statement (.sknp x) := by
  simp only [OpcodeRow.Statement, Instr.opcode, encode, packXKK]
  ext k hk; interval_cases k <;> simp

open Sys2Proof in
theorem Sys2Proof.Laws.OpcodeRow.ldVxDt (x : Nibble) : Sys2Proof.Laws.OpcodeRow.Statement (.ldVxDt x) := by
  simp only [OpcodeRow.Statement, Instr.opcode, encode, packXKK]
  ext k hk; interval_cases k <;> simp

open Sys2Proof in
theorem Sys2Proof.Laws.OpcodeRow.ldDtVx (x : Nibble) : Sys2Proof.Laws.OpcodeRow.Statement (.ldDtVx x) := by
  simp only [OpcodeRow.Statement, Instr.opcode, encode, packXKK]
  ext k hk; interval_cases k <;> simp

open Sys2Proof in
theorem Sys2Proof.Laws.OpcodeRow.ldStVx (x : Nibble) : Sys2Proof.Laws.OpcodeRow.Statement (.ldStVx x) := by
  simp only [OpcodeRow.Statement, Instr.opcode, encode, packXKK]
  ext k hk; interval_cases k <;> simp

open Sys2Proof in
theorem Sys2Proof.Laws.OpcodeRow.addI (x : Nibble) : Sys2Proof.Laws.OpcodeRow.Statement (.addI x) := by
  simp only [OpcodeRow.Statement, Instr.opcode, encode, packXKK]
  ext k hk; interval_cases k <;> simp

open Sys2Proof in
theorem Sys2Proof.Laws.OpcodeRow.ldF (x : Nibble) : Sys2Proof.Laws.OpcodeRow.Statement (.ldF x) := by
  simp only [OpcodeRow.Statement, Instr.opcode, encode, packXKK]
  ext k hk; interval_cases k <;> simp

open Sys2Proof in
theorem Sys2Proof.Laws.OpcodeRow.ldB (x : Nibble) : Sys2Proof.Laws.OpcodeRow.Statement (.ldB x) := by
  simp only [OpcodeRow.Statement, Instr.opcode, encode, packXKK]
  ext k hk; interval_cases k <;> simp

open Sys2Proof in
theorem Sys2Proof.Laws.OpcodeRow.stRegs (x : Nibble) : Sys2Proof.Laws.OpcodeRow.Statement (.stRegs x) := by
  simp only [OpcodeRow.Statement, Instr.opcode, encode, packXKK]
  ext k hk; interval_cases k <;> simp

open Sys2Proof in
theorem Sys2Proof.Laws.OpcodeRow.ldRegs (x : Nibble) : Sys2Proof.Laws.OpcodeRow.Statement (.ldRegs x) := by
  simp only [OpcodeRow.Statement, Instr.opcode, encode, packXKK]
  ext k hk; interval_cases k <;> simp

open Sys2Proof in
theorem Sys2Proof.Laws.OperandsFit.cls : Sys2Proof.Laws.OperandsFit.Statement .cls := rfl

open Sys2Proof in
theorem Sys2Proof.Laws.OperandsFit.ret : Sys2Proof.Laws.OperandsFit.Statement .ret := rfl

open Sys2Proof in
theorem Sys2Proof.Laws.OperandsFit.jp (nnn : Addr) : Sys2Proof.Laws.OperandsFit.Statement (.jp nnn) := by
  simp [OperandsFit.Statement, Instr.wf, Instr.operands, OperandField.fits, addr_lt]

open Sys2Proof in
theorem Sys2Proof.Laws.OperandsFit.call (nnn : Addr) : Sys2Proof.Laws.OperandsFit.Statement (.call nnn) := by
  simp [OperandsFit.Statement, Instr.wf, Instr.operands, OperandField.fits, addr_lt]

open Sys2Proof in
theorem Sys2Proof.Laws.OperandsFit.seImm (x : Nibble) (kk : Byte) : Sys2Proof.Laws.OperandsFit.Statement (.seImm x kk) := by
  simp [OperandsFit.Statement, Instr.wf, Instr.operands, OperandField.fits, nibble_lt, byte_lt]

open Sys2Proof in
theorem Sys2Proof.Laws.OperandsFit.sneImm (x : Nibble) (kk : Byte) : Sys2Proof.Laws.OperandsFit.Statement (.sneImm x kk) := by
  simp [OperandsFit.Statement, Instr.wf, Instr.operands, OperandField.fits, nibble_lt, byte_lt]

open Sys2Proof in
theorem Sys2Proof.Laws.OperandsFit.seReg (x y : Nibble) : Sys2Proof.Laws.OperandsFit.Statement (.seReg x y) := by
  simp [OperandsFit.Statement, Instr.wf, Instr.operands, OperandField.fits, nibble_lt]

open Sys2Proof in
theorem Sys2Proof.Laws.OperandsFit.ldImm (x : Nibble) (kk : Byte) : Sys2Proof.Laws.OperandsFit.Statement (.ldImm x kk) := by
  simp [OperandsFit.Statement, Instr.wf, Instr.operands, OperandField.fits, nibble_lt, byte_lt]

open Sys2Proof in
theorem Sys2Proof.Laws.OperandsFit.addImm (x : Nibble) (kk : Byte) : Sys2Proof.Laws.OperandsFit.Statement (.addImm x kk) := by
  simp [OperandsFit.Statement, Instr.wf, Instr.operands, OperandField.fits, nibble_lt, byte_lt]

open Sys2Proof in
theorem Sys2Proof.Laws.OperandsFit.ldReg (x y : Nibble) : Sys2Proof.Laws.OperandsFit.Statement (.ldReg x y) := by
  simp [OperandsFit.Statement, Instr.wf, Instr.operands, OperandField.fits, nibble_lt]

open Sys2Proof in
theorem Sys2Proof.Laws.OperandsFit.orReg (x y : Nibble) : Sys2Proof.Laws.OperandsFit.Statement (.orReg x y) := by
  simp [OperandsFit.Statement, Instr.wf, Instr.operands, OperandField.fits, nibble_lt]

open Sys2Proof in
theorem Sys2Proof.Laws.OperandsFit.andReg (x y : Nibble) : Sys2Proof.Laws.OperandsFit.Statement (.andReg x y) := by
  simp [OperandsFit.Statement, Instr.wf, Instr.operands, OperandField.fits, nibble_lt]

open Sys2Proof in
theorem Sys2Proof.Laws.OperandsFit.xorReg (x y : Nibble) : Sys2Proof.Laws.OperandsFit.Statement (.xorReg x y) := by
  simp [OperandsFit.Statement, Instr.wf, Instr.operands, OperandField.fits, nibble_lt]

open Sys2Proof in
theorem Sys2Proof.Laws.OperandsFit.addReg (x y : Nibble) : Sys2Proof.Laws.OperandsFit.Statement (.addReg x y) := by
  simp [OperandsFit.Statement, Instr.wf, Instr.operands, OperandField.fits, nibble_lt]

open Sys2Proof in
theorem Sys2Proof.Laws.OperandsFit.subReg (x y : Nibble) : Sys2Proof.Laws.OperandsFit.Statement (.subReg x y) := by
  simp [OperandsFit.Statement, Instr.wf, Instr.operands, OperandField.fits, nibble_lt]

open Sys2Proof in
theorem Sys2Proof.Laws.OperandsFit.shr (x y : Nibble) : Sys2Proof.Laws.OperandsFit.Statement (.shr x y) := by
  simp [OperandsFit.Statement, Instr.wf, Instr.operands, OperandField.fits, nibble_lt]

open Sys2Proof in
theorem Sys2Proof.Laws.OperandsFit.subnReg (x y : Nibble) : Sys2Proof.Laws.OperandsFit.Statement (.subnReg x y) := by
  simp [OperandsFit.Statement, Instr.wf, Instr.operands, OperandField.fits, nibble_lt]

open Sys2Proof in
theorem Sys2Proof.Laws.OperandsFit.shl (x y : Nibble) : Sys2Proof.Laws.OperandsFit.Statement (.shl x y) := by
  simp [OperandsFit.Statement, Instr.wf, Instr.operands, OperandField.fits, nibble_lt]

open Sys2Proof in
theorem Sys2Proof.Laws.OperandsFit.sneReg (x y : Nibble) : Sys2Proof.Laws.OperandsFit.Statement (.sneReg x y) := by
  simp [OperandsFit.Statement, Instr.wf, Instr.operands, OperandField.fits, nibble_lt]

open Sys2Proof in
theorem Sys2Proof.Laws.OperandsFit.ldI (nnn : Addr) : Sys2Proof.Laws.OperandsFit.Statement (.ldI nnn) := by
  simp [OperandsFit.Statement, Instr.wf, Instr.operands, OperandField.fits, addr_lt]

open Sys2Proof in
theorem Sys2Proof.Laws.OperandsFit.jpV0 (nnn : Addr) : Sys2Proof.Laws.OperandsFit.Statement (.jpV0 nnn) := by
  simp [OperandsFit.Statement, Instr.wf, Instr.operands, OperandField.fits, addr_lt]

open Sys2Proof in
theorem Sys2Proof.Laws.OperandsFit.rnd (x : Nibble) (kk : Byte) : Sys2Proof.Laws.OperandsFit.Statement (.rnd x kk) := by
  simp [OperandsFit.Statement, Instr.wf, Instr.operands, OperandField.fits, nibble_lt, byte_lt]

open Sys2Proof in
theorem Sys2Proof.Laws.OperandsFit.drw (x y n : Nibble) : Sys2Proof.Laws.OperandsFit.Statement (.drw x y n) := by
  simp [OperandsFit.Statement, Instr.wf, Instr.operands, OperandField.fits, nibble_lt]

open Sys2Proof in
theorem Sys2Proof.Laws.OperandsFit.skp (x : Nibble) : Sys2Proof.Laws.OperandsFit.Statement (.skp x) := by
  simp [OperandsFit.Statement, Instr.wf, Instr.operands, OperandField.fits, nibble_lt]

open Sys2Proof in
theorem Sys2Proof.Laws.OperandsFit.sknp (x : Nibble) : Sys2Proof.Laws.OperandsFit.Statement (.sknp x) := by
  simp [OperandsFit.Statement, Instr.wf, Instr.operands, OperandField.fits, nibble_lt]

open Sys2Proof in
theorem Sys2Proof.Laws.OperandsFit.ldVxDt (x : Nibble) : Sys2Proof.Laws.OperandsFit.Statement (.ldVxDt x) := by
  simp [OperandsFit.Statement, Instr.wf, Instr.operands, OperandField.fits, nibble_lt]

open Sys2Proof in
theorem Sys2Proof.Laws.OperandsFit.ldDtVx (x : Nibble) : Sys2Proof.Laws.OperandsFit.Statement (.ldDtVx x) := by
  simp [OperandsFit.Statement, Instr.wf, Instr.operands, OperandField.fits, nibble_lt]

open Sys2Proof in
theorem Sys2Proof.Laws.OperandsFit.ldStVx (x : Nibble) : Sys2Proof.Laws.OperandsFit.Statement (.ldStVx x) := by
  simp [OperandsFit.Statement, Instr.wf, Instr.operands, OperandField.fits, nibble_lt]

open Sys2Proof in
theorem Sys2Proof.Laws.OperandsFit.addI (x : Nibble) : Sys2Proof.Laws.OperandsFit.Statement (.addI x) := by
  simp [OperandsFit.Statement, Instr.wf, Instr.operands, OperandField.fits, nibble_lt]

open Sys2Proof in
theorem Sys2Proof.Laws.OperandsFit.ldF (x : Nibble) : Sys2Proof.Laws.OperandsFit.Statement (.ldF x) := by
  simp [OperandsFit.Statement, Instr.wf, Instr.operands, OperandField.fits, nibble_lt]

open Sys2Proof in
theorem Sys2Proof.Laws.OperandsFit.ldB (x : Nibble) : Sys2Proof.Laws.OperandsFit.Statement (.ldB x) := by
  simp [OperandsFit.Statement, Instr.wf, Instr.operands, OperandField.fits, nibble_lt]

open Sys2Proof in
theorem Sys2Proof.Laws.OperandsFit.stRegs (x : Nibble) : Sys2Proof.Laws.OperandsFit.Statement (.stRegs x) := by
  simp [OperandsFit.Statement, Instr.wf, Instr.operands, OperandField.fits, nibble_lt]

open Sys2Proof in
theorem Sys2Proof.Laws.OperandsFit.ldRegs (x : Nibble) : Sys2Proof.Laws.OperandsFit.Statement (.ldRegs x) := by
  simp [OperandsFit.Statement, Instr.wf, Instr.operands, OperandField.fits, nibble_lt]
end

