-- ==== Sys2Proof/Tests/Slice0.lean ====
section
/-! SUPPORT. Tests on fixed values, all taken from spec/: the words are written out from the encodings of
30_encoding.md, the expected results from the vectors of 95_test_vectors.md (named T.. in the comments) or the examples
of the rules. At the end, for each obligation with hypotheses, a concrete state and operands that meet them. -/

namespace Sys2Proof.Tests
open Sys2Proof.Machine

/-! ### Well-formedness and configuration -/

theorem test_wf_refuses_register_16 : (OperandField.reg 16).fits = false ∧ (OperandField.reg 15).fits = true := by decide
theorem test_wf_refuses_row_count_16 : (OperandField.rows 16).fits = false ∧ (OperandField.rows 0).fits = true := by decide
theorem test_wf_refuses_byte_256 : (OperandField.byte 256).fits = false ∧ (OperandField.byte 255).fits = true := by decide
theorem test_wf_refuses_address_4096 : (OperandField.addr 4096).fits = false ∧ (OperandField.addr 4095).fits = true := by
  decide
/-- The constraints of rule R3. -/
theorem test_config_ok : Config.ok = true := by decide
/-- Rule R46: glyph A is at 0x32, glyph F is the last, and no row of a glyph uses the low 4 bits. -/
theorem test_font : (Config.font.drop 0x32).take 5 = [0xF0, 0x90, 0xF0, 0x90, 0x90] ∧
    Config.font.drop 0x4B = [0xF0, 0x80, 0xF0, 0x80, 0x80] ∧ Config.font.all (fun b => b &&& 0x0F == 0x00) = true := by
  decide

/-! ### Decoding, one word per constructor, its fixed digits from the opcode map of rule R66 -/

theorem test_decode_cls : decode 0b0000_0000_1110_0000 = some (.cls) ∧ encode (.cls) = 0b0000_0000_1110_0000 := by decide
theorem test_decode_ret : decode 0b0000_0000_1110_1110 = some (.ret) ∧ encode (.ret) = 0b0000_0000_1110_1110 := by decide
theorem test_decode_jp : decode 0b0001_1010_1011_1100 = some (.jp 0xABC) ∧ encode (.jp 0xABC) = 0b0001_1010_1011_1100 := by decide
theorem test_decode_call : decode 0b0010_0011_0000_0001 = some (.call 0x301) ∧ encode (.call 0x301) = 0b0010_0011_0000_0001 := by decide
theorem test_decode_seImm : decode 0b0011_1010_0010_1011 = some (.seImm 0xA 0x2B) ∧ encode (.seImm 0xA 0x2B) = 0b0011_1010_0010_1011 := by decide
theorem test_decode_sneImm : decode 0b0100_1010_0010_1011 = some (.sneImm 0xA 0x2B) ∧ encode (.sneImm 0xA 0x2B) = 0b0100_1010_0010_1011 := by decide
theorem test_decode_seReg : decode 0b0101_0001_0010_0000 = some (.seReg 0x1 0x2) ∧ encode (.seReg 0x1 0x2) = 0b0101_0001_0010_0000 := by decide
theorem test_decode_ldImm : decode 0b0110_1010_0010_1011 = some (.ldImm 0xA 0x2B) ∧ encode (.ldImm 0xA 0x2B) = 0b0110_1010_0010_1011 := by decide
theorem test_decode_addImm : decode 0b0111_1111_0000_0001 = some (.addImm 0xF 0x01) ∧ encode (.addImm 0xF 0x01) = 0b0111_1111_0000_0001 := by decide
theorem test_decode_ldReg : decode 0b1000_0011_0101_0000 = some (.ldReg 0x3 0x5) ∧ encode (.ldReg 0x3 0x5) = 0b1000_0011_0101_0000 := by decide
theorem test_decode_orReg : decode 0b1000_0011_0101_0001 = some (.orReg 0x3 0x5) ∧ encode (.orReg 0x3 0x5) = 0b1000_0011_0101_0001 := by decide
theorem test_decode_andReg : decode 0b1000_0011_0101_0010 = some (.andReg 0x3 0x5) ∧ encode (.andReg 0x3 0x5) = 0b1000_0011_0101_0010 := by decide
theorem test_decode_xorReg : decode 0b1000_0011_0101_0011 = some (.xorReg 0x3 0x5) ∧ encode (.xorReg 0x3 0x5) = 0b1000_0011_0101_0011 := by decide
theorem test_decode_addReg : decode 0b1000_0011_0101_0100 = some (.addReg 0x3 0x5) ∧ encode (.addReg 0x3 0x5) = 0b1000_0011_0101_0100 := by decide
theorem test_decode_subReg : decode 0b1000_0011_0101_0101 = some (.subReg 0x3 0x5) ∧ encode (.subReg 0x3 0x5) = 0b1000_0011_0101_0101 := by decide
theorem test_decode_shr : decode 0b1000_0011_0101_0110 = some (.shr 0x3 0x5) ∧ encode (.shr 0x3 0x5) = 0b1000_0011_0101_0110 := by decide
theorem test_decode_subnReg : decode 0b1000_0011_0101_0111 = some (.subnReg 0x3 0x5) ∧ encode (.subnReg 0x3 0x5) = 0b1000_0011_0101_0111 := by decide
theorem test_decode_shl : decode 0b1000_0011_0101_1110 = some (.shl 0x3 0x5) ∧ encode (.shl 0x3 0x5) = 0b1000_0011_0101_1110 := by decide
theorem test_decode_sneReg : decode 0b1001_0001_0010_0000 = some (.sneReg 0x1 0x2) ∧ encode (.sneReg 0x1 0x2) = 0b1001_0001_0010_0000 := by decide
theorem test_decode_ldI : decode 0b1010_0010_1111_0000 = some (.ldI 0x2F0) ∧ encode (.ldI 0x2F0) = 0b1010_0010_1111_0000 := by decide
theorem test_decode_jpV0 : decode 0b1011_1111_1111_1110 = some (.jpV0 0xFFE) ∧ encode (.jpV0 0xFFE) = 0b1011_1111_1111_1110 := by decide
theorem test_decode_rnd : decode 0b1100_0011_0000_1111 = some (.rnd 0x3 0x0F) ∧ encode (.rnd 0x3 0x0F) = 0b1100_0011_0000_1111 := by decide
theorem test_decode_drw : decode 0b1101_0001_0010_0101 = some (.drw 0x1 0x2 0x5) ∧ encode (.drw 0x1 0x2 0x5) = 0b1101_0001_0010_0101 := by decide
theorem test_decode_skp : decode 0b1110_0100_1001_1110 = some (.skp 0x4) ∧ encode (.skp 0x4) = 0b1110_0100_1001_1110 := by decide
theorem test_decode_sknp : decode 0b1110_0100_1010_0001 = some (.sknp 0x4) ∧ encode (.sknp 0x4) = 0b1110_0100_1010_0001 := by decide
theorem test_decode_ldVxDt : decode 0b1111_0011_0000_0111 = some (.ldVxDt 0x3) ∧ encode (.ldVxDt 0x3) = 0b1111_0011_0000_0111 := by decide
theorem test_decode_ldDtVx : decode 0b1111_0010_0001_0101 = some (.ldDtVx 0x2) ∧ encode (.ldDtVx 0x2) = 0b1111_0010_0001_0101 := by decide
theorem test_decode_ldStVx : decode 0b1111_0010_0001_1000 = some (.ldStVx 0x2) ∧ encode (.ldStVx 0x2) = 0b1111_0010_0001_1000 := by decide
theorem test_decode_addI : decode 0b1111_0010_0001_1110 = some (.addI 0x2) ∧ encode (.addI 0x2) = 0b1111_0010_0001_1110 := by decide
theorem test_decode_ldF : decode 0b1111_0001_0010_1001 = some (.ldF 0x1) ∧ encode (.ldF 0x1) = 0b1111_0001_0010_1001 := by decide
theorem test_decode_ldB : decode 0b1111_0011_0011_0011 = some (.ldB 0x3) ∧ encode (.ldB 0x3) = 0b1111_0011_0011_0011 := by decide
theorem test_decode_stRegs : decode 0b1111_0001_0101_0101 = some (.stRegs 0x1) ∧ encode (.stRegs 0x1) = 0b1111_0001_0101_0101 := by decide
theorem test_decode_ldRegs : decode 0b1111_0001_0110_0101 = some (.ldRegs 0x1) ∧ encode (.ldRegs 0x1) = 0b1111_0001_0110_0101 := by decide

/-- Rule R67, one word of each group of unknown words (TX1 to TX13). -/
theorem test_decode_unknown :
    [0x0000, 0x0123, 0x00E1, 0x5001, 0x8008, 0x800F, 0x9001, 0xE000, 0xE19F, 0xF00A, 0xF000, 0xF075, 0xFFFF].all
      (fun w => decode w == none) = true := by decide
/-- Rule R61: the byte at the lower address is the high byte; rule R60: two bytes each. -/
theorem test_decode_bytes : decodeBytes [0x70, 0x01, 0x60] = some (.addImm 0x0 0x01, [0x60]) ∧ decodeBytes [0x70] = none := by
  decide
theorem test_decode_table_word : decodeTableWord 16 0x8015 = some (.subReg 0x0 0x1) ∧ decodeTableWord 16 0xF00A = none := by
  decide

/-! ### Single steps -/

/-- The state one step leaves; no step fails to leave one. -/
def after (s : State) : State :=
  match step s with
  | .next t => t
  | _ => s

/-- A state with some registers set. -/
def withRegs (s : State) (l : List (Nibble × Byte)) : State := l.foldl (fun s p => s.setReg p.1 p.2) s

/-- One step with the word at `PC`, from the reset state with some registers and `I` set. -/
def ran (w : Nat) (l : List (Nibble × Byte)) (i : Word := 0) (mem : Memory := []) : State :=
  after ({ withRegs State.reset l with i := i, mem := mem }.withFetchWord 16 w)

/-- The state one STEP leaves that carries the random byte `rnd`. -/
def afterWith (rnd : Byte) (s : State) : State :=
  match stepWith rnd s with
  | .next t => t
  | _ => s

/-- `ran` with the random byte the STEP carries. -/
def ranWith (rnd : Byte) (w : Nat) (l : List (Nibble × Byte)) : State :=
  afterWith rnd ((withRegs State.reset l).withFetchWord 16 w)

/-- The same as `ran` with other state prepared. -/
def ranFrom (w : Nat) (s : State) : State := after (s.withFetchWord 16 w)

/-- A fault in EXECUTE: `PC` advanced, halted, the code and the word recorded (rule R223). -/
def faulted (s : State) (code : BitVec 3) (info : Word) : Bool :=
  s.pc == 0x0202 && s.run == .halted && s.err == ⟨code, info⟩

/-- TG22: only the display region, VF untouched. -/
theorem test_cls_clears_display_only : (fun t : State => (t.mem.read 0xF00, t.mem.read 0xFFF, t.mem.read 0xEFF, t.reg 0xF))
    (ran 0x00E0 [(0xF, 0x01)] 0 [(0xEFF, 0x77), (0xF00, 0xF0), (0xFFF, 0x01)]) = (0x00, 0x00, 0x77, 0x01) := by decide +kernel
/-- TB9: the newest entry, an odd address accepted. -/
theorem test_ret_pops_newest : (fun t : State => (t.pc, t.stack)) (ranFrom 0x00EE { State.reset with stack := [0x0111, 0x0ABD] }) = (0x0ABD, [0x0111]) := by decide
/-- TB10: the empty stack. -/
theorem test_ret_on_empty_stack : faulted (ran 0x00EE []) 3 0x00EE = true := by decide
/-- TB2: an odd target is accepted. -/
theorem test_jp_odd_target : (ran 0x1201 []).pc = 0x0201 := by decide
/-- TB4: no fault at the jump. -/
theorem test_jp_last_address : (fun t : State => (t.pc, t.run)) (ran 0x1FFF []) = (0x0FFF, .empty) := by decide
/-- TB5: the return address is `a + 2`. -/
theorem test_call_pushes_advanced_pc : (fun t : State => (t.pc, t.stack)) (ran 0x2ABC []) = (0x0ABC, [0x0202]) := by decide
/-- TB6, TB7: the 16th entry fits, the 17th push faults. -/
theorem test_call_on_full_stack : (ranFrom 0x2300 { State.reset with stack := List.replicate 15 0x0202 }).sp = 16 ∧
    faulted (ranFrom 0x2300 { State.reset with stack := List.replicate 16 0x0202 }) 2 0x2300 = true := by decide
/-- TB14, TB15. -/
theorem test_seImm_skips : (ran 0x3A2B [(0xA, 0x2B)]).pc = 0x0204 ∧ (ran 0x3A2B [(0xA, 0x2C)]).pc = 0x0202 := by decide
/-- TB24: `PC = 0x1002` is kept. -/
theorem test_seImm_at_last_word : (ranFrom 0x3000 { State.reset with pc := 0x0FFE }).pc = 0x1002 := by decide
/-- TB16, TB17. -/
theorem test_sneImm_skips : (ran 0x4A2B [(0xA, 0x2C)]).pc = 0x0204 ∧ (ran 0x4A2B [(0xA, 0x2B)]).pc = 0x0202 := by decide
/-- TB18, TB19. -/
theorem test_seReg_skips : (ran 0x5120 [(1, 7), (2, 7)]).pc = 0x0204 ∧ (ran 0x5120 [(1, 7), (2, 8)]).pc = 0x0202 := by decide
/-- TB21, TB22. -/
theorem test_sneReg_skips : (ran 0x9120 [(1, 7), (2, 8)]).pc = 0x0204 ∧ (ran 0x9120 [(1, 7), (2, 7)]).pc = 0x0202 := by decide
/-- TA1. -/
theorem test_ldImm : (fun t : State => (t.reg 0xA, t.pc)) (ran 0x6A2B []) = (0x2B, 0x0202) := by decide
/-- TA3, the source's example. -/
theorem test_addImm_wraps_without_flag : (fun t : State => (t.reg 0, t.reg 0xF)) (ran 0x7001 [(0, 0xFF), (0xF, 0x01)]) = (0x00, 0x01) := by decide
/-- TA4: no flag in `VF` either. -/
theorem test_addImm_into_vf : (ran 0x7F01 [(0xF, 0xFF)]).reg 0xF = 0x00 := by decide
/-- TA6. -/
theorem test_ldReg : (fun t : State => (t.reg 0, t.reg 1)) (ran 0x8010 [(1, 0x37)]) = (0x37, 0x37) := by decide
/-- TA8. -/
theorem test_orReg_keeps_vf : (fun t : State => (t.reg 0, t.reg 0xF)) (ran 0x8011 [(0, 0xF0), (1, 0x0F), (0xF, 0x05)]) = (0xFF, 0x05) := by decide
/-- TA9. -/
theorem test_andReg_keeps_vf : (fun t : State => (t.reg 0, t.reg 0xF)) (ran 0x8012 [(0, 0xF0), (1, 0x3C), (0xF, 0x01)]) = (0x30, 0x01) := by decide
/-- TA10, TA11. -/
theorem test_xorReg : (ran 0x8013 [(0, 0xF0), (1, 0x3C)]).reg 0 = 0xCC ∧ (ran 0x8333 [(3, 0xA5)]).reg 3 = 0x00 := by decide
/-- TA13: no carry at 255. -/
theorem test_addReg_sum_255 : (fun t : State => (t.reg 0, t.reg 0xF)) (ran 0x8014 [(0, 0x80), (1, 0x7F), (0xF, 0x01)]) = (0xFF, 0x00) := by decide
/-- TA16, TA17: `x = F`, then `y = F`. -/
theorem test_addReg_flag_wins : (ran 0x8F14 [(0xF, 0xF0), (1, 0x20)]).reg 0xF = 0x01 ∧
    (fun t : State => (t.reg 0, t.reg 0xF)) (ran 0x80F4 [(0, 0x01), (0xF, 0x02)]) = (0x03, 0x00) := by decide
/-- TA18. -/
theorem test_subReg_borrows : (fun t : State => (t.reg 0, t.reg 0xF)) (ran 0x8015 [(0, 0x10), (1, 0x20), (0xF, 0x01)]) = (0xF0, 0x00) := by decide
/-- TA20, TA22: equality is no borrow; `x = F`. -/
theorem test_subReg_equal : (fun t : State => (t.reg 0, t.reg 0xF)) (ran 0x8015 [(0, 0x33), (1, 0x33)]) = (0x00, 0x01) ∧
    (ran 0x8F15 [(0xF, 0x05), (1, 0x03)]).reg 0xF = 0x01 := by decide
/-- TA23: `y` is ignored. -/
theorem test_shr_in_place : (fun t : State => (t.reg 0, t.reg 0xF)) (ran 0x8016 [(0, 0x05), (1, 0xFF)]) = (0x02, 0x01) := by decide
/-- TA24: the other value of `SHIFT_SOURCE`. -/
theorem test_shr_source_vy : (fun t : State => (t.reg 0, t.reg 0xF)) (shiftRight .vy 0 1 (withRegs State.reset [(0, 0x05), (1, 0xFE)])) = (0x7F, 0x00) := by decide
/-- TA29. -/
theorem test_subnReg_borrows : (fun t : State => (t.reg 0, t.reg 0xF)) (ran 0x8017 [(0, 0x20), (1, 0x10)]) = (0xF0, 0x00) := by decide
/-- TA31: `y = F`, overwritten by the flag. -/
theorem test_subnReg_from_vf : (fun t : State => (t.reg 0, t.reg 0xF)) (ran 0x80F7 [(0, 0x01), (0xF, 0x05)]) = (0x04, 0x01) := by decide
/-- TA32, TA36: `x = F` ends as the flag. -/
theorem test_shl_in_place : (fun t : State => (t.reg 0, t.reg 0xF)) (ran 0x800E [(0, 0x81)]) = (0x02, 0x01) ∧ (ran 0x8FFE [(0xF, 0x80)]).reg 0xF = 0x01 := by decide
/-- TA35: the other value of `SHIFT_SOURCE`. -/
theorem test_shl_source_vy : (fun t : State => (t.reg 0, t.reg 0xF)) (shiftLeft .vy 0 1 (withRegs State.reset [(0, 0x01), (1, 0x80)])) = (0x00, 0x01) := by decide
/-- TC2. -/
theorem test_ldI : (ran 0xAFFF [] 0x1234).i = 0x0FFF := by decide
/-- TB12: `0x10FE` is kept. -/
theorem test_jpV0_not_reduced : (ran 0xBFFF [(0, 0xFF)]).pc = 0x10FE := by decide
/-- TB13: `V3` plays no part. -/
theorem test_jpV0_uses_v0 : (ran 0xB300 [(3, 0x44)]).pc = 0x0300 := by decide
/-- TR1, TR2, TR3, TR4: the byte the STEP carries AND the mask; `x = F`. -/
theorem test_rnd_masks_the_byte_of_the_step : (ranWith 0xA7 0xC00F []).reg 0 = 0x07 ∧ (ranWith 0xA7 0xC0FF []).reg 0 = 0xA7 ∧
    (ranWith 0xFF 0xC000 [(0, 0x55)]).reg 0 = 0x00 ∧ (ranWith 0x5A 0xCFF0 []).reg 0xF = 0x50 := by decide
/-- TR1 for every source, where the step carries no byte: exactly one free byte AND the mask. -/
theorem test_rnd_takes_a_free_byte : (ran 0xC00F []).reg 0 = Config.randomByte 0 &&& 0x0F ∧ (ran 0xC00F []).draws = 1 := ⟨rfl, rfl⟩
/-- TR5: every other instruction ignores the byte. -/
theorem test_step_ignores_the_byte : ranWith 0xFF 0x6000 [] = ran 0x6000 [] := by decide
/-- TG3: two halves in two bytes. -/
theorem test_drw_unaligned : (fun t : State => (t.mem.read 0xF00, t.mem.read 0xF01, t.reg 0xF)) (ran 0xD011 [(0, 0x04)] 0x300 [(0x300, 0xFF)]) =
    (0x0F, 0xF0, 0x00) := by decide +kernel
/-- TG19: the sprite lies in the display region. -/
theorem test_drw_reads_sprite_before_draw : (fun t : State => (t.mem.read 0xF01, t.mem.read 0xF09, t.reg 0xF)) (ran 0xD012 [(0, 0x08)] 0xF00 [(0xF00, 0x81)]) =
    (0x81, 0x00, 0x00) := by decide +kernel
/-- TE5, TE6: the highest key; 16 is not masked to 0. -/
theorem test_skp : (ranFrom 0xE09E ((withRegs State.reset [(0, 0x0F)]).setKey 0xF true)).pc = 0x0204 ∧
    faulted (ranFrom 0xE09E ((withRegs State.reset [(0, 0x10)]).setKey 0x0 true)) 6 0xE09E = true := by decide
/-- TE2: another key pressed. -/
theorem test_skp_other_key : (ranFrom 0xE09E ((withRegs State.reset [(0, 0x07)]).setKey 0x6 true)).pc = 0x0202 := by decide
/-- TE3, TE4. -/
theorem test_sknp : (ran 0xE0A1 [(0, 0x07)]).pc = 0x0204 ∧ (ranFrom 0xE0A1 ((withRegs State.reset [(0, 0x07)]).setKey 0x7 true)).pc = 0x0202 := by decide
/-- TE7. -/
theorem test_sknp_wrong_key : faulted (ran 0xE0A1 [(0, 0xFF)]) 6 0xE0A1 = true := by decide
/-- TD1. -/
theorem test_ldVxDt_after_tick : (fun t : State => (t.reg 3, t.dt)) (ranFrom 0xF307 { State.reset with dt := 0x05 }) = (0x04, 0x04) := by decide
/-- TD4. -/
theorem test_ldDtVx_after_tick : (ranFrom 0xF315 { withRegs State.reset [(3, 0x3C)] with dt := 0x02 }).dt = 0x3C := by decide
/-- TD5. -/
theorem test_ldStVx : (ran 0xF318 [(3, 0x02)]).st = 0x02 := by decide
/-- TD6, TD8: also in a step that faults. -/
theorem test_timers_tick_in_any_step : (fun t : State => (t.dt, t.st)) (ranFrom 0x6000 { State.reset with dt := 0x01, st := 0xFF }) = (0x00, 0xFE) ∧
    (fun t : State => (t.dt, t.st)) (ranFrom 0x0000 { State.reset with dt := 0x05, st := 0x01 }) = (0x04, 0x00) := by decide
/-- TC4: kept, no flag. -/
theorem test_addI_passes_4095 : (fun t : State => (t.i, t.reg 0xF)) (ran 0xF01E [(0, 0x01)] 0x0FFF) = (0x1000, 0x00) := by decide
/-- TC5: modulo 65536. -/
theorem test_addI_wraps : (ran 0xF21E [(2, 0x02)] 0xFFFF).i = 0x0001 := by decide
/-- TC25: the last glyph. -/
theorem test_ldF : (ran 0xF029 [(0, 0x0F)]).i = 0x004B := by decide
/-- TC26: the fault, `I` kept. -/
theorem test_ldF_sixteen : faulted (ran 0xF029 [(0, 0x10)] 0x0123) 5 0xF029 = true ∧ (ran 0xF029 [(0, 0x10)] 0x0123).i = 0x0123 := by decide
/-- TC21. -/
theorem test_ldB_at_last_bytes : (fun t : State => t.mem.readBytes 0xFFD 3) (ran 0xF033 [(0, 0x7B)] 0x0FFD) = [0x01, 0x02, 0x03] := by decide
/-- TC22. -/
theorem test_ldB_past_the_end : faulted (ran 0xF033 [(0, 0x7B)] 0x0FFE) 7 0xF033 = true := by decide
/-- TC7: `V3` is not stored, `I` unchanged. -/
theorem test_stRegs_range : (fun t : State => (t.mem.readBytes 0x300 4, t.i)) (ran 0xF255 [(0, 0x11), (1, 0x22), (2, 0x33), (3, 0x44)] 0x300) =
    ([0x11, 0x22, 0x33, 0x00], 0x0300) := by decide
/-- TC9: nothing is stored. -/
theorem test_stRegs_past_the_end : faulted (ran 0xF155 [(0, 0xAB), (1, 0xCD)] 0x0FFF) 7 0xF155 = true ∧
    (ran 0xF155 [(0, 0xAB), (1, 0xCD)] 0x0FFF).mem.read 0xFFF = 0x00 := by decide
/-- TC14: `V3` is kept. -/
theorem test_ldRegs_range : (fun t : State => (t.reg 0, t.reg 2, t.reg 3))
    (ran 0xF265 [(3, 0x99)] 0x300 [(0x300, 0x11), (0x301, 0x22), (0x302, 0x33), (0x303, 0x44)]) = (0x11, 0x33, 0x99) := by decide
/-- TC16. -/
theorem test_ldRegs_past_the_end : faulted (ran 0xFF65 [] 0x0FF1) 7 0xFF65 = true := by decide
/-- TX14: `PC` not advanced, `DT` not ticked. -/
theorem test_fetch_past_the_end : (fun t : State => (t.pc, t.dt, t.run, t.err)) (after { State.reset with pc := 0x0FFF, dt := 0x05 }) =
    (0x0FFF, 0x05, .halted, ⟨7, 0x0FFF⟩) := by decide
/-- TX17. -/
theorem test_fetch_odd_pc : (fun t : State => (t.reg 0xA, t.pc)) (after { State.reset with pc := 0x0201, mem := [(0x200, 0x12), (0x201, 0x6A), (0x202, 0x2B)] }) =
    (0x2B, 0x0203) := by decide
/-- TX10. -/
theorem test_unknown_word : faulted (ran 0xF00A []) 4 0xF00A = true := by decide
/-- TX18: nothing changes. -/
theorem test_halted_step : after { State.reset with pc := 0x0202, dt := 0x08, run := .halted, err := ⟨3, 0x00EE⟩ } =
    { State.reset with pc := 0x0202, dt := 0x08, run := .halted, err := ⟨3, 0x00EE⟩ } := by decide
/-- Rules R31, R207: font, ROM, a clear screen. -/
theorem test_load_then_framebuffer : (fun t : State => (t.run, t.mem.read 0x4B, t.mem.read 0x201, t.framebuffer.all (· == 0x00)))
    (State.reset.loaded [0x12, 0x00, 0x77]) = (.ready, 0xF0, 0x00, true) := by decide +kernel

/-! ### Witnesses: every obligation with hypotheses has states and operands that meet them -/

/-- The reset state with a word at `PC`. -/
def holding (w : Nat) : State := State.reset.withFetchWord 16 w
/-- A halted state: the state after vector TB10. -/
def haltedState : State := { State.reset with pc := 0x0202, run := .halted, err := ⟨3, 0x00EE⟩ }
/-- What `00EE` leaves of the reset state. -/
def haltedWithUnderflow : State := { State.reset with run := .halted, err := ⟨3, 0x00EE⟩ }
/-- The step answers a next state. -/
def stepped (s : State) : Bool :=
  match step s with
  | .next _ => true
  | _ => false
/-- Where a step answers a next state, `after` is that state. -/
theorem step_after {s : State} (h : stepped s = true) : step s = .next (after s) := by
  unfold stepped at h
  unfold after
  split at h
  · next t e => rw [e]
  · cases h

theorem witness_EncodeOfDecode : decode 0x801E = some (.shl 0x0 0x1) := by decide
theorem witness_StepRunsDecodedInstruction : (holding 0x6A2B).run ≠ .halted ∧ (holding 0x6A2B).pc.toNat ≤ 0xFFE ∧
    decode (fetchedWord (holding 0x6A2B)) = some (.ldImm 0xA 0x2B) ∧ (Instr.ldImm 0xA 0x2B).wf = true := by decide
/-- The last address an instruction is fetched from. -/
def lastWord : State := { State.reset with pc := 0x0FFE, mem := [(0xFFE, 0x12), (0xFFF, 0x34)] }
theorem witness_StepRunsDecodedInstruction_last_address : lastWord.run ≠ .halted ∧ lastWord.pc.toNat ≤ 0xFFE ∧ decode (fetchedWord lastWord) = some (.jp 0x234) := by decide
theorem witness_HaltedCoreStaysHalted : haltedState.run = .halted ∧
    transact (.setKey 0xF true) haltedState = .next (haltedState.setKey 0xF true, .nothing) ∧ Transaction.setKey 0xF true ≠ .reset := ⟨rfl, rfl, by decide⟩
theorem witness_StepReturnsOkOrTheFault : (holding 0x6A2B).run ≠ .halted ∧ stepWith 0x00 (holding 0x6A2B) = .next (afterWith 0x00 (holding 0x6A2B)) ∧
    (afterWith 0x00 (holding 0x6A2B)).run ≠ .halted := ⟨by decide, rfl, by decide⟩
theorem witness_StepReturnsOkOrTheFault_fault : (holding 0x0000).run ≠ .halted ∧ stepWith 0x00 (holding 0x0000) = .next (afterWith 0x00 (holding 0x0000)) ∧
    (afterWith 0x00 (holding 0x0000)).run = .halted := ⟨by decide, rfl, by decide⟩
/-- A call at the reset address, with `PC` there. -/
theorem witness_Inv : Inv (holding 0x2ABC) :=
  ⟨by decide, by decide, nofun, by decide, fun _ => rfl, by decide⟩
/-- The bounds of the invariant are reached. -/
theorem witness_Inv_boundary : Inv { haltedState with pc := 0x10FE, stack := List.replicate 16 0x1000 } :=
  ⟨by decide, by decide, fun _ h => List.eq_of_mem_replicate h ▸ by decide, by decide, by decide, by decide⟩
theorem witness_StepKeepsInv : Inv (holding 0x2ABC) ∧ step (holding 0x2ABC) = .next (after (holding 0x2ABC)) :=
  ⟨witness_Inv, step_after (by decide)⟩
theorem witness_TransactionsKeepInv : Inv (holding 0x2ABC) ∧
    transact (.setKey 0x0 true) (holding 0x2ABC) = .next ((holding 0x2ABC).setKey 0x0 true, .nothing) ∧
    transact .reset haltedState = .next (haltedState.afterReset, .nothing) :=
  ⟨witness_Inv, rfl, rfl⟩
theorem witness_CanonicalMemoriesThatReadAlikeAreEqual :
    Memory.wf [(0, 1), (4095, 2)] = true ∧ ∀ a, Memory.read [(0, 1), (4095, 2)] a = Memory.read [(0, 1), (4095, 2)] a :=
  ⟨by decide, fun _ => rfl⟩
/-- `PC` one past the last word that can be fetched. -/
def beyondState : State := { State.reset with pc := 0x0FFF }
theorem witness_FaultsAreExactlyTheTabled : beyondState.run ≠ .halted ∧ 0xFFE < beyondState.pc.toNat ∧
    (holding 0xF00A).run ≠ .halted ∧ (holding 0xF00A).pc.toNat ≤ 0xFFE ∧ decode (fetchedWord (holding 0xF00A)) = none := by decide
theorem witness_FaultingStepHasOneOfTwoShapes_fetch : beyondState.run ≠ .halted ∧ step beyondState = .next (after beyondState) ∧ (after beyondState).run = .halted := ⟨by decide, step_after (by decide), by decide⟩
theorem witness_FaultingStepHasOneOfTwoShapes_execute : (holding 0x00EE).run ≠ .halted ∧ step (holding 0x00EE) = .next (after (holding 0x00EE)) ∧
    (after (holding 0x00EE)).run = .halted := ⟨by decide, step_after (by decide), by decide⟩
theorem witness_AccessOutOfRangeDoesNotHappen_fetch : beyondState.run ≠ .halted ∧ 0xFFF < beyondState.pc.toNat + 1 ∧ ¬ 0xFFF < lastWord.pc.toNat + 1 ∧
    inRange 0xFFE 2 = true ∧ inRange 0xFFF 2 = false ∧ inRange 0xFFFF 0 = true := by decide
theorem witness_AccessOutOfRangeDoesNotHappen_data : State.reset.run ≠ .halted ∧
    0xFFF < 0xFF1 + dataBytes (.stRegs 0xF) - 1 ∧ ¬ 0xFFF < 0xFF0 + dataBytes (.ldRegs 0xF) - 1 ∧
    0xFFF < 0xFFE + dataBytes (.ldB 0) - 1 ∧ ¬ 0xFFF < 0xFFD + dataBytes (.ldB 0) - 1 ∧
    0xFFF < 0xFF2 + dataBytes (.drw 0 0 0xF) - 1 ∧ ¬ 0xFFF < 0xFF1 + dataBytes (.drw 0 0 0xF) - 1 ∧
    ¬ 0 < dataBytes (.drw 0 0 0) := by decide
theorem witness_AccessOutOfRangeDoesNotHappen_whole : lastWord.run ≠ .halted ∧ lastWord.pc.toNat + 1 ≤ 0xFFF ∧
    ({ State.reset with i := 0x0FF0 }).i.toNat + (0xF : Nibble).toNat ≤ 0xFFF ∧ (0xF : Nibble).toNat ≤ (0xF : Nibble).toNat ∧
    ({ State.reset with i := 0x0FFD }).i.toNat + 2 ≤ 0xFFF ∧
    ((0x0 : Nibble).toNat = 0 ∨ ({ State.reset with i := 0xFFFF }).i.toNat + (0x0 : Nibble).toNat - 1 ≤ 0xFFF) ∧
    ((0xF : Nibble).toNat = 0 ∨ ({ State.reset with i := 0x0FF1 }).i.toNat + (0xF : Nibble).toNat - 1 ≤ 0xFFF) := by decide
theorem witness_RunStateChangesAsTabled :
    transact (.step 0xA7) haltedState = .next (haltedState, .fault ⟨3, 0x00EE⟩) ∧
    transact .reset haltedState = .next (haltedState.afterReset, .nothing) ∧
    transact .framebuffer haltedState = .next (haltedState, .bytes haltedState.framebuffer) := ⟨rfl, rfl, rfl⟩
theorem witness_RunStateChangesAsTabled_load : transact (.load []) State.reset = .next (State.reset.loaded [], .ok) := rfl
theorem witness_KeysAreChangedByTheHostOnly : exec (.skp 0x0) State.reset = .next State.reset ∧ step (holding 0x6A2B) = .next (after (holding 0x6A2B)) ∧
    transact (.step 0xFF) haltedState = .next (haltedState, .fault ⟨3, 0x00EE⟩) ∧
    transact (.load []) State.reset = .next (State.reset.loaded [], .ok) := ⟨rfl, step_after (by decide), rfl, rfl⟩
theorem witness_MemoryIsWrittenByFourForms : (∀ x, Instr.ret ≠ .stRegs x) ∧ (∀ x, Instr.ret ≠ .ldB x) ∧ (∀ x y n, Instr.ret ≠ .drw x y n) ∧
    Instr.ret ≠ .cls ∧ exec .ret State.reset = .next haltedWithUnderflow := ⟨nofun, nofun, nofun, nofun, rfl⟩
theorem witness_StackIsTouchedByCallAndReturnOnly : (∀ nnn, Instr.jp 0x234 ≠ .call nnn) ∧ Instr.jp 0x234 ≠ .ret ∧
    exec (.jp 0x234) State.reset = .next (State.reset.setPc 0x0234) ∧
    (∀ rnd, Transaction.framebuffer ≠ .step rnd) ∧ Transaction.framebuffer ≠ .reset := ⟨nofun, nofun, rfl, nofun, nofun⟩
theorem witness_IndexIsWrittenByThreeForms : (∀ nnn, Instr.ldImm 0 1 ≠ .ldI nnn) ∧ (∀ x, Instr.ldImm 0 1 ≠ .ldF x) ∧ (∀ x, Instr.ldImm 0 1 ≠ .addI x) ∧
    exec (.ldImm 0 1) State.reset = .next (State.reset.setReg 0 1) := ⟨nofun, nofun, nofun, rfl⟩
theorem witness_RegistersAreWrittenAsTabled : exec (.ldImm 0 1) State.reset = .next (State.reset.setReg 0 1) ∧ writesReg (.ldImm 0 1) 0x1 = false := ⟨rfl, by decide⟩
theorem witness_RegistersAreWrittenAsTabled_boundary : writesReg (.ldRegs 0x1) 0x2 = false ∧ writesReg (.ldRegs 0x1) 0x1 = true ∧
    writesReg (.addReg 0x0 0x1) 0xE = false ∧ writesReg (.addReg 0x0 0x1) 0xF = true := by decide
theorem witness_TimersTickInEveryStep : (holding 0xF307).run ≠ .halted ∧ (holding 0xF307).pc.toNat ≤ 0xFFE ∧
    step (holding 0xF307) = .next (after (holding 0xF307)) ∧ decode (fetchedWord (holding 0xF307)) = some (.ldVxDt 0x3) := ⟨by decide, by decide, step_after (by decide), by decide⟩
theorem witness_TimersTickInEveryStep_writes : (holding 0xF215).run ≠ .halted ∧ (holding 0xF215).pc.toNat ≤ 0xFFE ∧ stepped (holding 0xF215) = true ∧
    decode (fetchedWord (holding 0xF215)) = some (.ldDtVx 0x2) ∧ stepped (holding 0xF218) = true ∧
    decode (fetchedWord (holding 0xF218)) = some (.ldStVx 0x2) := by decide
theorem witness_PcAfterAStepIsAsTabled_fetch : beyondState.run ≠ .halted ∧ step beyondState = .next (after beyondState) ∧ 0xFFE < beyondState.pc.toNat := ⟨by decide, step_after (by decide), by decide⟩
theorem witness_PcAfterAStepIsAsTabled_execute : (holding 0x00EE).run ≠ .halted ∧ step (holding 0x00EE) = .next (after (holding 0x00EE)) ∧
    (holding 0x00EE).pc.toNat ≤ 0xFFE ∧ (after (holding 0x00EE)).run = .halted := ⟨by decide, step_after (by decide), by decide, by decide⟩
theorem witness_PcAfterAStepIsAsTabled : (holding 0x2ABC).run ≠ .halted ∧ step (holding 0x2ABC) = .next (after (holding 0x2ABC)) ∧
    (holding 0x2ABC).pc.toNat ≤ 0xFFE ∧ (after (holding 0x2ABC)).run ≠ .halted ∧
    decode (fetchedWord (holding 0x2ABC)) = some (.call 0xABC) := ⟨by decide, step_after (by decide), by decide, by decide, by decide⟩
theorem witness_RandomSourceReachesOnlyRnd : ∀ x kk, Instr.cls ≠ .rnd x kk := nofun
/-- The two registers of a flag-writing instruction can differ, and a third register from both. -/
theorem witness_AddSetsCarry : (0x0 : Nibble) ≠ 0xF ∧ (0x1 : Nibble) ≠ 0x0 ∧ (0x1 : Nibble) ≠ 0xF := by decide
theorem witness_SubtractionsSetNoBorrow : (0xE : Nibble) ≠ 0xF ∧ (0x0 : Nibble) ≠ 0xE ∧ (0x0 : Nibble) ≠ 0xF := by decide
theorem witness_LoadImmediateSetsVxOnly : (0x1 : Nibble) ≠ 0x0 := by decide
theorem witness_ShiftsMoveOneBit : (Config.ShiftSource.vy = .vx ∧ (0x1 : Nibble) = 0x0 ∨ Config.ShiftSource.vy = .vy ∧ (0x1 : Nibble) = 0x1) ∧
    (Config.ShiftSource.vx = .vx ∧ (0x0 : Nibble) = 0x0 ∨ Config.ShiftSource.vx = .vy ∧ (0x0 : Nibble) = 0x1) ∧
    (0x0 : Nibble) ≠ 0xF ∧ (0x1 : Nibble) ≠ 0x0 ∧ (0x1 : Nibble) ≠ 0xF := by decide
theorem witness_CallPushesTheReturnAddress : ({ State.reset with stack := List.replicate 15 0x0202 }).stack.length < 16 ∧
    ({ State.reset with stack := List.replicate 16 0x0202 }).stack.length = 16 := by decide
theorem witness_ReturnPopsTheNewestAddress : ({ State.reset with stack := [0x0111, 0x0ABD] }).stack = [0x0111] ++ [0x0ABD] ∧ State.reset.stack = [] := by decide
theorem witness_ReturnUndoesCall : ({ State.reset with stack := List.replicate 15 0x0202 }).stack.length < 16 := by decide
theorem witness_BlockStoreWritesTheRange : ({ State.reset with i := 0x0FF0 }).i.toNat + (0xF : Nibble).toNat ≤ 0xFFF ∧
    (0xF : Nibble).toNat ≤ (0xF : Nibble).toNat ∧ (0xFEF : Nat) < ({ State.reset with i := 0x0FF0 }).i.toNat := by decide
theorem witness_BlockLoadReadsTheRange : ({ State.reset with i := 0x0FFF }).i.toNat + (0x0 : Nibble).toNat ≤ 0xFFF ∧
    (0x0 : Nibble).toNat ≤ (0x0 : Nibble).toNat ∧ (0x0 : Nibble).toNat < (0x1 : Nibble).toNat := by decide
theorem witness_BlockStoreThenLoadRoundTrip : ({ State.reset with i := 0x0FF0 }).i.toNat + (0xF : Nibble).toNat ≤ 0xFFF ∧
    (0xF : Nibble).toNat ≤ (0xF : Nibble).toNat := by decide
theorem witness_DecimalDigitsAreStored : ({ State.reset with i := 0x0FFD }).i.toNat ≤ 0xFFD ∧ (0xFFC : Nat) < ({ State.reset with i := 0x0FFD }).i.toNat := by decide
theorem witness_FontGlyphAddress : ((withRegs State.reset [(0, 15)]).reg 0).toNat < 16 ∧ 16 ≤ ((withRegs State.reset [(0, 16)]).reg 0).toNat := by decide
/-- `Fx15` and then `Fx07` in the next step (sequence Q5). -/
def timerRun : Nat → State
  | 0 => { withRegs State.reset [(0xA, 0x0A)] with mem := [(0x200, 0xFA), (0x201, 0x15), (0x202, 0xFB), (0x203, 0x07)] }
  | n + 1 => after (timerRun n)
theorem timerRun_running : ∀ m ≤ 1, (timerRun m).run ≠ .halted ∧ (timerRun m).pc.toNat ≤ 0xFFE ∧
    stepped (timerRun m) = true := by decide
theorem timerRun_words : decode (fetchedWord (timerRun 0)) = some (.ldDtVx 0xA) ∧
    decode (fetchedWord (timerRun 1)) = some (.ldVxDt 0xB) := by decide
theorem witness_TimerReadAfterWriteCountsTheSteps :
    (∀ m ≤ 1, (timerRun m).run ≠ .halted ∧ (timerRun m).pc.toNat ≤ 0xFFE ∧
      step (timerRun m) = .next (timerRun (m + 1))) ∧
    decode (fetchedWord (timerRun 0)) = some (.ldDtVx 0xA) ∧
    (∀ m ≤ 1, 1 ≤ m → ∀ z, decode (fetchedWord (timerRun m)) ≠ some (.ldDtVx z)) ∧
    decode (fetchedWord (timerRun 1)) = some (.ldVxDt 0xB) := by
  refine ⟨fun m hm => ?_, timerRun_words.1, fun m hm hm' z => ?_, timerRun_words.2⟩
  · obtain ⟨h1, h2, h3⟩ := timerRun_running m hm
    exact ⟨h1, h2, step_after h3⟩
  · obtain rfl : m = 1 := by omega
    rw [timerRun_words.2]
    simp
theorem witness_KeySkips : ((withRegs State.reset [(0, 15)]).reg 0).toNat = (0xF : Nibble).toNat ∧
    15 < ((withRegs State.reset [(0, 16)]).reg 0).toNat := by decide
theorem witness_DrawTurnsOverTheCoveredPixels : ((0x0 : Nibble).toNat = 0 ∨ ({ State.reset with i := 0xFFFF }).i.toNat + (0x0 : Nibble).toNat - 1 ≤ 0xFFF) ∧
    ((0xF : Nibble).toNat = 0 ∨ ({ State.reset with i := 0x0FF1 }).i.toNat + (0xF : Nibble).toNat - 1 ≤ 0xFFF) := by decide
theorem witness_DrawEqualsTheByteLevelBlit : (0x2 : Nibble).toNat = 0 ∨ ({ State.reset with i := 0x0FFE }).i.toNat + (0x2 : Nibble).toNat - 1 ≤ 0xFFF := by decide
/-- A sprite row of one lit pixel just below the display region. -/
def spriteState : State := { State.reset with i := 0x0EFF, mem := [(0xEFF, 0x80)] }
theorem witness_DrawingTwiceRestoresTheScreen : (0x0 : Nibble) ≠ 0xF ∧ (0x1 : Nibble) ≠ 0xF ∧ spriteState.i.toNat + (0x1 : Nibble).toNat ≤ 0xF00 ∧
    spriteCovers spriteState 0x0 0x1 0x1 0 0 = true ∧ screenPixel spriteState 0 0 = false := by decide
theorem witness_LoadPlacesTheRomOrIsTurnedAway (b : Byte) : State.reset.run = .empty ∧
    0x200 + (List.replicate 3328 b).length ≤ 0xF00 ∧ 0xF00 < 0x200 + (List.replicate 3329 b).length ∧
    haltedState.run ≠ .empty := by
  rw [List.length_replicate, List.length_replicate]
  decide
theorem witness_StateAfterResetAndLoad (b : Byte) : (List.replicate 3328 b).length ≤ 3328 := by
  rw [List.length_replicate]
theorem witness_KeyTransactionsWriteKeysOnly : (0xE : Nibble) ≠ 0xF := by decide

end Sys2Proof.Tests
end

section
/-! The opcode map of rule R66 read as a relation between words and rows: a word decodes to an instruction exactly when
a row of the map admits the word and builds that instruction from its fields. -/

namespace Sys2Proof

@[simp] theorem OpcodeRow.admits_iff (r : OpcodeRow) (w : Word) : r.admits w = true ↔ w &&& r.mask = r.code :=
  beq_iff_eq

/-- The match values of one word agree on the bits both masks fix. -/
theorem and_mask_agree (w m m' : Word) : (m &&& m') &&& ((w &&& m) ^^^ (w &&& m')) = 0 := by
  ext k hk
  cases hm : m[k] <;> cases hm' : m'[k] <;> simp [hm, hm']

/-- A word has at most one row (rule R65). -/
theorem row_unique {r q : OpcodeRow} {w : Word} (hr : r ∈ opcodeRows) (hq : q ∈ opcodeRows)
    (hrw : r.admits w = true) (hqw : q.admits w = true) : r = q := by
  have never_both : opcodeRows.Pairwise fun a b => ¬ (a.admits w = true ∧ b.admits w = true) :=
    opcodeRows_disjoint.imp fun differ ⟨ha, hb⟩ => by
      rw [OpcodeRow.admits_iff] at ha hb
      exact differ (ha ▸ hb ▸ and_mask_agree w _ _)
  have symm : Std.Symm fun a b : OpcodeRow => ¬ (a.admits w = true ∧ b.admits w = true) :=
    ⟨fun _ _ h => h ∘ And.symm⟩
  by_contra hne
  exact never_both.forall hr hq hne ⟨hrw, hqw⟩

/-- What the decoder answers (rules R65, R83). -/
theorem decode_eq_some_iff {w : Word} {i : Instr} :
    decode w = some i ↔ ∃ r ∈ opcodeRows, r.admits w = true ∧ r.build w = i := by
  rw [decode, Option.map_eq_some_iff]
  constructor
  · rintro ⟨r, hfind, rfl⟩
    have hrw : r.admits w = true := List.find?_some (p := fun a : OpcodeRow => a.admits w) hfind
    exact ⟨r, List.mem_of_find?_eq_some hfind, hrw, rfl⟩
  · rintro ⟨r, hr, hrw, rfl⟩
    have some_row : (opcodeRows.find? (·.admits w)).isSome := List.find?_isSome.mpr ⟨r, hr, hrw⟩
    obtain ⟨q, hfind⟩ := Option.isSome_iff_exists.mp some_row
    have hqw : q.admits w = true := List.find?_some (p := fun a : OpcodeRow => a.admits w) hfind
    obtain rfl : q = r := row_unique (List.mem_of_find?_eq_some hfind) hr hqw hrw
    exact ⟨q, hfind, rfl⟩

/-- A row builds instructions of its own form only: the built instruction names the row's mask and match value. -/
theorem opcode_build (w : Word) : ∀ r ∈ opcodeRows, (r.build w).opcode = (r.mask, r.code) := by
  simp only [opcodeRows, opcodeRows1, opcodeRows2, opcodeRows3, rowNNN, rowXKK, rowXYS, rowXSS, List.cons_append,
    List.nil_append, List.forall_mem_cons, Instr.opcode, List.not_mem_nil, false_implies, implies_true, and_self]

/-- A word decodes to what a row builds from it exactly when it has the row's fixed bits (rule R66). -/
theorem decode_eq_build_iff (w : Word) {r : OpcodeRow} (hr : r ∈ opcodeRows) :
    decode w = some (r.build w) ↔ w &&& r.mask = r.code := by
  rw [decode_eq_some_iff]
  constructor
  · rintro ⟨q, hq, hqw, hbuild⟩
    have same_row : (q.mask, q.code) = (r.mask, r.code) := by
      rw [← opcode_build w q hq, hbuild, opcode_build w r hr]
    obtain ⟨hmask, hcode⟩ := Prod.mk.inj same_row
    rw [← hmask, ← hcode]
    exact (q.admits_iff w).mp hqw
  · exact fun hrw => ⟨r, hr, (r.admits_iff w).mpr hrw, rfl⟩

/-- Settles O3: the statement lists `decode_eq_build_iff` for every row of the opcode map, in the map's order. -/
theorem opcodeMapRows : Obligations.OpcodeMapRows := by
  intro w
  have every_row : opcodeRows.Forall fun r => decode w = some (r.build w) ↔ w &&& r.mask = r.code :=
    List.forall_iff_forall_mem.mpr fun _ => decode_eq_build_iff w
  exact every_row

end Sys2Proof
end

section
/-! The timers over a step that passes FETCH (rule R85): TICK takes one from each, and EXECUTE leaves both as they then
are, whether it completes or raises a fault, but for the one timer that `Fx15` or `Fx18` writes. -/

namespace Sys2Proof.Machine

/-- `fetchedWord` is what FETCH reads (rules R43, R82). -/
theorem State.wordAtPc_eq_fetchedWord (s : State) : s.wordAtPc = fetchedWord s := by
  apply BitVec.eq_of_toNat_eq
  have hi := (s.mem.read s.pc.toNat).isLt
  have lo := (s.mem.read (s.pc.toNat + 1)).isLt
  rw [State.wordAtPc, wordOfBytes_toNat, fetchedWord, BitVec.toNat_ofNat, Nat.mod_eq_of_lt (by omega)]

/-- Everything a step that passes FETCH can do (rules R82 to R86). -/
theorem step_of_fetch_passed {s : State} (hrun : s.run ≠ .halted) (hpc : s.pc.toNat ≤ 0xFFE) :
    (decode (fetchedWord s) = none ∧ step s = .next (s.toExecute.halt .unknownOpcode (fetchedWord s))) ∨
    ∃ i, decode (fetchedWord s) = some i ∧ step s = exec i s.toExecute := by
  rw [← s.wordAtPc_eq_fetchedWord]
  rcases step_cases s with ⟨h, -⟩ | ⟨-, h, -⟩ | ⟨-, -, unknown⟩ | ⟨-, -, runs⟩
  · exact absurd h hrun
  · omega
  · exact .inl unknown
  · exact .inr runs

@[simp] theorem skipIf_dt (c : Bool) (s : State) : (skipIf c s).dt = s.dt := by rw [skipIf_eq]

@[simp] theorem skipIf_st (c : Bool) (s : State) : (skipIf c s).st = s.st := by rw [skipIf_eq]

/-- `DT` after EXECUTE: `Fx15` alone writes it (rule R151). -/
def dtAfter (i : Instr) (s : State) : Byte :=
  match i with
  | .ldDtVx x => s.reg x
  | _ => s.dt

/-- `ST` after EXECUTE: `Fx18` alone writes it (rule R152). -/
def stAfter (i : Instr) (s : State) : Byte :=
  match i with
  | .ldStVx x => s.reg x
  | _ => s.st

theorem dtAfter_of_ne {i : Instr} (h : ∀ x, i ≠ .ldDtVx x) (s : State) : dtAfter i s = s.dt := by
  unfold dtAfter
  split
  · exact absurd rfl (h _)
  · rfl

theorem stAfter_of_ne {i : Instr} (h : ∀ x, i ≠ .ldStVx x) (s : State) : stAfter i s = s.st := by
  unfold stAfter
  split
  · exact absurd rfl (h _)
  · rfl

/-- An outcome whose next state, if it has one, holds these two timers. -/
def TimersEndAs (dt st : Byte) (o : Host.Outcome State Fault Refusal) : Prop :=
  ∀ t, o = .next t → t.dt = dt ∧ t.st = st

theorem TimersEndAs.next {dt st : Byte} {t : State} (hdt : t.dt = dt) (hst : t.st = st) :
    TimersEndAs dt st (.next t) := by
  rintro _ ⟨⟩
  exact ⟨hdt, hst⟩

/-- A fault taken in EXECUTE leaves both timers (rule R223). -/
theorem TimersEndAs.raiseIn (i : Instr) (f : Fault) (s : State) : TimersEndAs s.dt s.st (raiseIn i f s) := .next rfl rfl

theorem TimersEndAs.ite {dt st : Byte} {c : Prop} [Decidable c] {o o' : Host.Outcome State Fault Refusal}
    (h : TimersEndAs dt st o) (h' : TimersEndAs dt st o') : TimersEndAs dt st (if c then o else o') := by
  split
  · exact h
  · exact h'

/-- What EXECUTE leaves in the timers, instruction by instruction: those that can fault on both sides of their check. -/
theorem exec_timers (i : Instr) (s : State) : TimersEndAs (dtAfter i s) (stAfter i s) (exec i s) := by
  cases i
  case call => exact .ite (.raiseIn _ _ s) (.next rfl rfl)
  case drw | stRegs | ldRegs | ldB | ldF =>
    exact .ite (.next (by simp [dtAfter]) (by simp [stAfter])) (.raiseIn _ _ s)
  case ret =>
    simp only [exec, execRet]
    split
    · exact .raiseIn _ _ s
    · exact .next rfl rfl
  case skp | sknp =>
    simp only [exec, execSkp, execSknp]
    split
    · exact .next (skipIf_dt _ s) (skipIf_st _ s)
    · exact .raiseIn _ _ s
  case seImm | sneImm | seReg | sneReg => exact .next (skipIf_dt _ s) (skipIf_st _ s)
  case cls => exact .next (State.commit_dt s _) (State.commit_st s _)
  all_goals exact .next rfl rfl

/-- Settles O25: the ticked timers go through EXECUTE as `exec_timers` says, and a word that is no instruction halts with
them. -/
theorem timersTickInEveryStep : Obligations.TimersTickInEveryStep := by
  intro s t hrun hpc hstep
  rcases step_of_fetch_passed hrun hpc with ⟨hd, e⟩ | ⟨i, hd, e⟩
  · obtain rfl : s.toExecute.halt .unknownOpcode (fetchedWord s) = t := by
      rw [e] at hstep
      exact Host.Outcome.next.inj hstep
    simp [hd, tickDown_toNat]
  · have hexec : exec i s.toExecute = .next t := e ▸ hstep
    obtain ⟨hdt, hst⟩ := exec_timers i s.toExecute t hexec
    simp only [hd, ne_eq, Option.some.injEq]
    refine ⟨fun h => ?_, fun h => ?_, ?_, ?_, ?_⟩
    · rw [hdt, dtAfter_of_ne h, State.toExecute_dt, tickDown_toNat]
    · rw [hst, stAfter_of_ne h, State.toExecute_st, tickDown_toNat]
    · rintro x rfl
      obtain rfl : s.toExecute.setReg x s.toExecute.dt = t := Host.Outcome.next.inj hexec
      rw [State.reg_setReg_self, State.toExecute_dt, tickDown_toNat]
    · rintro x rfl
      exact hdt
    · rintro x rfl
      exact hst

end Sys2Proof.Machine
end

section
/-! Register load and addition (rules R92, R93, R98): each writes its registers by `setReg` or `setResultAndFlag`, so
what it leaves unchanged is what those two operations leave unchanged. -/

namespace Sys2Proof.Machine

theorem exec_ldImm (x : Nibble) (kk : Byte) (s : State) : exec (.ldImm x kk) s = .next (s.setReg x kk) := rfl

theorem exec_addImm (x : Nibble) (kk : Byte) (s : State) :
    exec (.addImm x kk) s = .next (s.setReg x (trunc8 ((s.reg x).toNat + kk.toNat))) := rfl

theorem exec_addReg (x y : Nibble) (s : State) :
    exec (.addReg x y) s = .next (s.setResultAndFlag x (trunc8 ((s.reg x).toNat + (s.reg y).toNat))
      (carryFlag (s.reg x) (s.reg y))) := rfl

/-- A register write changes the register file only. -/
theorem State.setReg_frame (s : State) (x : Nibble) (b : Byte) : s.setReg x b = { s with v := (s.setReg x b).v } := rfl

/-- A result and a flag change the register file only. -/
theorem State.setResultAndFlag_frame (s : State) (x : Nibble) (b f : Byte) :
    s.setResultAndFlag x b f = { s with v := (s.setResultAndFlag x b f).v } := rfl

/-- `VF` ends as the flag, also where it is the result register (rules R13, R91). -/
theorem State.reg_setResultAndFlag_vf (s : State) (x : Nibble) (b f : Byte) : (s.setResultAndFlag x b f).reg 0xF = f :=
  (s.setReg x b).reg_setReg_self vf f

theorem State.reg_setResultAndFlag_result (s : State) {x : Nibble} (hx : x ≠ 0xF) (b f : Byte) :
    (s.setResultAndFlag x b f).reg x = b := by
  rw [reg_setResultAndFlag, if_neg (show x ≠ vf from hx), if_pos rfl]

theorem State.reg_setResultAndFlag_of_ne (s : State) {x r : Nibble} (hx : r ≠ x) (hf : r ≠ 0xF) (b f : Byte) :
    (s.setResultAndFlag x b f).reg r = s.reg r := by
  rw [reg_setResultAndFlag, if_neg (show r ≠ vf from hf), if_neg hx]

theorem carryFlag_eq (a b : Byte) : carryFlag a b = if 255 < a.toNat + b.toNat then 1 else 0 := by
  simp [carryFlag, flagByte]

/-- Settles O29: `6xkk` is one register write. -/
theorem loadImmediateSetsVxOnly : Obligations.LoadImmediateSetsVxOnly := fun x kk s =>
  ⟨s.setReg x kk, exec_ldImm x kk s, s.setReg_frame x kk, s.reg_setReg_self x kk, fun _ h => s.reg_setReg_of_ne h kk⟩

/-- Settles O30: `7xkk` is one register write, of the sum's low 8 bits. -/
theorem addImmediateWrapsWithoutFlag : Obligations.AddImmediateWrapsWithoutFlag := by
  intro x kk s
  refine ⟨_, exec_addImm x kk s, s.setReg_frame x _, ?_, fun _ h => s.reg_setReg_of_ne h _⟩
  rw [State.reg_setReg_self, trunc8_toNat]

/-- Settles O33: the sum's low 8 bits go to `Vx` and the carry then to `VF`. -/
theorem addSetsCarry : Obligations.AddSetsCarry := by
  intro x y s
  refine ⟨_, exec_addReg x y s, s.setResultAndFlag_frame x _ _, ?_, fun hx => ?_,
    fun _ hx hf => s.reg_setResultAndFlag_of_ne hx hf _ _⟩
  · rw [State.reg_setResultAndFlag_vf, carryFlag_eq]
  · rw [s.reg_setResultAndFlag_result hx, trunc8_toNat]

end Sys2Proof.Machine
end

section
/-! Control flow (rule R111): a jump writes `PC` by `setPc`, so what it leaves unchanged is what that operation leaves
unchanged. -/

namespace Sys2Proof.Machine

theorem exec_jp (nnn : Addr) (s : State) : exec (.jp nnn) s = .next (s.setPc (zextAddr nnn)) := rfl

/-- A write of `PC` changes no other part of the state. -/
theorem State.setPc_frame (s : State) (a : Word) : s.setPc a = { s with pc := (s.setPc a).pc } := rfl

/-- Settles O36: `1nnn` is one write of `PC`, of the target zero-extended to 16 bits. -/
theorem jumpSetsPcOnly : Obligations.JumpSetsPcOnly := by
  intro nnn s
  refine ⟨_, exec_jp nnn s, s.setPc_frame _, ?_⟩
  rw [State.setPc_pc, zextAddr_toNat]

end Sys2Proof.Machine
end

section
/-! The index register (rule R131): `I` is written by `setI`, so what an index load leaves unchanged is what that operation
leaves unchanged. -/

namespace Sys2Proof.Machine

theorem exec_ldI (nnn : Addr) (s : State) : exec (.ldI nnn) s = .next (s.setI (zextAddr nnn)) := rfl

/-- A write of `I` changes no other part of the state. -/
theorem State.setI_frame (s : State) (a : Word) : s.setI a = { s with i := (s.setI a).i } := rfl

/-- Settles O42: `Annn` is one write of `I`, of the address zero-extended to 16 bits. -/
theorem loadIndexSetsIOnly : Obligations.LoadIndexSetsIOnly := by
  intro nnn s
  refine ⟨_, exec_ldI nnn s, s.setI_frame _, ?_⟩
  rw [State.setI_i, zextAddr_toNat]

end Sys2Proof.Machine
end

section
/-! The timer instructions (rules R150, R151, R152): a read of `DT` is one register write, a write of `DT` or `ST` one write
of that field. The tick comes before EXECUTE, so none of them ticks. -/

namespace Sys2Proof.Machine

theorem exec_ldVxDt (x : Nibble) (s : State) : exec (.ldVxDt x) s = .next (s.setReg x s.dt) := rfl

theorem exec_ldDtVx (x : Nibble) (s : State) : exec (.ldDtVx x) s = .next (s.setDt (s.reg x)) := rfl

theorem exec_ldStVx (x : Nibble) (s : State) : exec (.ldStVx x) s = .next (s.setSt (s.reg x)) := rfl

/-- Settles O49: `Fx07` is one register write, of `DT`; `Fx15` and `Fx18` are one write of `DT` or `ST`, of `Vx`. -/
theorem timerInstructions : Obligations.TimerInstructions := by
  intro x s
  refine ⟨⟨s.setReg x s.dt, exec_ldVxDt x s, s.setReg_frame x s.dt, ?_, ?_⟩, exec_ldDtVx x s, exec_ldStVx x s⟩
  · exact s.reg_setReg_self x s.dt
  · exact fun _ h => s.reg_setReg_of_ne h s.dt

end Sys2Proof.Machine
end

section
/-! The key transactions (rules R205, R206): SET_KEY and RESET_KEYBOARD write the key flags, so what they leave unchanged is
what those two writes leave unchanged. -/

namespace Sys2Proof.Machine

theorem transact_setKey (k : Nibble) (p : Bool) (s : State) :
    transact (.setKey k p) s = .next (s.setKey k p, .nothing) := rfl

theorem transact_resetKeyboard (s : State) : transact .resetKeyboard s = .next (s.resetKeyboard, .nothing) := rfl

/-- A write of one key flag changes no part of the state but the keys. -/
theorem State.setKey_frame (s : State) (k : Nibble) (p : Bool) : s.setKey k p = { s with key := (s.setKey k p).key } := rfl

/-- Releasing every key changes no part of the state but the keys. -/
theorem State.resetKeyboard_frame (s : State) : s.resetKeyboard = { s with key := s.resetKeyboard.key } := rfl

/-- Reading a key after every key is released (rule R206). -/
@[simp] theorem State.keyAt_resetKeyboard (s : State) (k : Nibble) : s.resetKeyboard.keyAt k = false := by
  rw [State.keyAt, State.resetKeyboard_key, Vector.getElem_replicate]

/-- Settles O59: SET_KEY is one write of one key flag, RESET_KEYBOARD one write of all sixteen. -/
theorem keyTransactionsWriteKeysOnly : Obligations.KeyTransactionsWriteKeysOnly := by
  refine fun s => ⟨fun k p => ⟨_, transact_setKey k p s, s.setKey_frame k p, ?_, fun q hq => ?_⟩,
    ⟨_, transact_resetKeyboard s, s.resetKeyboard_frame, s.keyAt_resetKeyboard⟩⟩
  · rw [State.keyAt_setKey, if_pos rfl]
  · rw [State.keyAt_setKey, if_neg hq]

end Sys2Proof.Machine
end

section
/-! The words of the opcode map: an instruction's word is in the row of its form and gives the instruction back, and a
row writes back every word it admits. -/

namespace Sys2Proof

/-- The row of the map for the form of `i` builds `i` from the fields of the word of `i` (rules R62, R66). -/
theorem exists_row_of_encode (i : Instr) :
    ∃ r, opcodeRows.find? (fun r => (r.mask, r.code) = i.opcode) = some r ∧ r.build (encode i) = i := by
  cases i <;> refine ⟨_, rfl, ?_⟩ <;> simp [rowNNN, rowXKK, rowXYS, rowXSS, encode]

/-- The word of an instruction has the fixed bits of its form (rule R66). -/
theorem encode_and_mask : ∀ i : Instr, encode i &&& i.opcode.1 = i.opcode.2
  | .cls => Laws.OpcodeRow.cls
  | .ret => Laws.OpcodeRow.ret
  | .jp nnn => Laws.OpcodeRow.jp nnn
  | .call nnn => Laws.OpcodeRow.call nnn
  | .seImm x kk => Laws.OpcodeRow.seImm x kk
  | .sneImm x kk => Laws.OpcodeRow.sneImm x kk
  | .seReg x y => Laws.OpcodeRow.seReg x y
  | .ldImm x kk => Laws.OpcodeRow.ldImm x kk
  | .addImm x kk => Laws.OpcodeRow.addImm x kk
  | .ldReg x y => Laws.OpcodeRow.ldReg x y
  | .orReg x y => Laws.OpcodeRow.orReg x y
  | .andReg x y => Laws.OpcodeRow.andReg x y
  | .xorReg x y => Laws.OpcodeRow.xorReg x y
  | .addReg x y => Laws.OpcodeRow.addReg x y
  | .subReg x y => Laws.OpcodeRow.subReg x y
  | .shr x y => Laws.OpcodeRow.shr x y
  | .subnReg x y => Laws.OpcodeRow.subnReg x y
  | .shl x y => Laws.OpcodeRow.shl x y
  | .sneReg x y => Laws.OpcodeRow.sneReg x y
  | .ldI nnn => Laws.OpcodeRow.ldI nnn
  | .jpV0 nnn => Laws.OpcodeRow.jpV0 nnn
  | .rnd x kk => Laws.OpcodeRow.rnd x kk
  | .drw x y n => Laws.OpcodeRow.drw x y n
  | .skp x => Laws.OpcodeRow.skp x
  | .sknp x => Laws.OpcodeRow.sknp x
  | .ldVxDt x => Laws.OpcodeRow.ldVxDt x
  | .ldDtVx x => Laws.OpcodeRow.ldDtVx x
  | .ldStVx x => Laws.OpcodeRow.ldStVx x
  | .addI x => Laws.OpcodeRow.addI x
  | .ldF x => Laws.OpcodeRow.ldF x
  | .ldB x => Laws.OpcodeRow.ldB x
  | .stRegs x => Laws.OpcodeRow.stRegs x
  | .ldRegs x => Laws.OpcodeRow.ldRegs x

/-- Every operand fits, since the fields of `Instr` have the widths of the encoding (rule R63; log 19). -/
theorem Instr.wf_eq_true (i : Instr) : i.wf = true := by
  cases i <;> simp [wf, operands, OperandField.fits, Laws.nibble_lt, Laws.byte_lt, Laws.addr_lt]

theorem decode_encode (i : Instr) : decode (encode i) = some i := by
  obtain ⟨r, hfind, hbuild⟩ := exists_row_of_encode i
  have hrow : (r.mask, r.code) = i.opcode := by simpa using List.find?_some hfind
  have hbits : encode i &&& r.mask = r.code := by simpa [← hrow] using encode_and_mask i
  have hdecode := (decode_eq_build_iff (encode i) (List.mem_of_find?_eq_some hfind)).mpr hbits
  rwa [hbuild] at hdecode

/-- Settles O1: the row of an instruction's form admits its word and builds it again. -/
theorem decodeOfEncode : Obligations.DecodeOfEncode := fun i => ⟨i.wf_eq_true, decode_encode i⟩

/-! The other direction: a word is packed again from the fields its row reads and the bits its row fixes. -/

theorem packNNN_of_mask {w c : Word} (h : w &&& 0xF000 = c) : packNNN (c.extractLsb' 12 4) (fieldNNN w) = w := by
  rw [← op_of_maskF000 h, packNNN_fields]

theorem packXKK_of_mask {w c : Word} (h : w &&& 0xF000 = c) :
    packXKK (c.extractLsb' 12 4) (fieldX w) (fieldKK w) = w := by
  rw [← op_of_maskF000 h, packXKK_fields]

theorem packXYN_of_mask {w c : Word} (h : w &&& 0xF000 = c) :
    packXYN (c.extractLsb' 12 4) (fieldX w) (fieldY w) (fieldN w) = w := by
  rw [← op_of_maskF000 h, packXYN_fields]

theorem packXYS_of_mask {w c : Word} (h : w &&& 0xF00F = c) :
    packXYN (c.extractLsb' 12 4) (fieldX w) (fieldY w) (fieldN c) = w := by
  obtain ⟨hop, hn⟩ := op_of_maskF00F h
  rw [← hop, ← hn, packXYN_fields]

theorem packXSS_of_mask {w c : Word} (h : w &&& 0xF0FF = c) :
    packXKK (c.extractLsb' 12 4) (fieldX w) (fieldKK c) = w := by
  obtain ⟨hop, hkk⟩ := op_of_maskF0FF h
  rw [← hop, ← hkk, packXKK_fields]

/-- The row writes back every word it admits: it drops no bit. -/
def OpcodeRow.WritesBack (r : OpcodeRow) : Prop := ∀ w, w &&& r.mask = r.code → encode (r.build w) = w

theorem constant_writesBack {c : Word} {i : Instr} (hi : encode i = c) :
    OpcodeRow.WritesBack ⟨0xFFFF, c, fun _ => i⟩ := fun w h => by
  rw [hi]
  exact h.symm.trans BitVec.and_allOnes

theorem rowNNN_writesBack {c : Word} {mk : Addr → Instr}
    (hmk : ∀ a, encode (mk a) = packNNN (c.extractLsb' 12 4) a := by intros; rfl) : (rowNNN c mk).WritesBack :=
  fun _ h => (hmk _).trans (packNNN_of_mask h)

theorem rowXKK_writesBack {c : Word} {mk : Nibble → Byte → Instr}
    (hmk : ∀ x kk, encode (mk x kk) = packXKK (c.extractLsb' 12 4) x kk := by intros; rfl) :
    (rowXKK c mk).WritesBack :=
  fun _ h => (hmk _ _).trans (packXKK_of_mask h)

theorem rowXYS_writesBack {c : Word} {mk : Nibble → Nibble → Instr}
    (hmk : ∀ x y, encode (mk x y) = packXYN (c.extractLsb' 12 4) x y (fieldN c) := by intros; rfl) :
    (rowXYS c mk).WritesBack :=
  fun _ h => (hmk _ _).trans (packXYS_of_mask h)

theorem rowXSS_writesBack {c : Word} {mk : Nibble → Instr}
    (hmk : ∀ x, encode (mk x) = packXKK (c.extractLsb' 12 4) x (fieldKK c) := by intros; rfl) :
    (rowXSS c mk).WritesBack :=
  fun _ h => (hmk _).trans (packXSS_of_mask h)

theorem opcodeRows_writeBack : opcodeRows.Forall OpcodeRow.WritesBack :=
  ⟨constant_writesBack rfl, constant_writesBack rfl, rowNNN_writesBack, rowNNN_writesBack, rowXKK_writesBack,
    rowXKK_writesBack, rowXYS_writesBack, rowXKK_writesBack, rowXKK_writesBack,
    rowXYS_writesBack, rowXYS_writesBack, rowXYS_writesBack, rowXYS_writesBack, rowXYS_writesBack,
    rowXYS_writesBack, rowXYS_writesBack, rowXYS_writesBack, rowXYS_writesBack, rowXYS_writesBack,
    rowNNN_writesBack, rowNNN_writesBack, rowXKK_writesBack, fun _ h => packXYN_of_mask (c := 0xD000) h,
    rowXSS_writesBack, rowXSS_writesBack, rowXSS_writesBack, rowXSS_writesBack, rowXSS_writesBack,
    rowXSS_writesBack, rowXSS_writesBack, rowXSS_writesBack, rowXSS_writesBack, rowXSS_writesBack⟩

/-- Settles O2: the row a word decodes by writes the word back. -/
theorem encodeOfDecode : Obligations.EncodeOfDecode := by
  intro w i hdecode
  obtain ⟨r, hr, hadmits, rfl⟩ := decode_eq_some_iff.mp hdecode
  exact List.forall_iff_forall_mem.mp opcodeRows_writeBack r hr w ((r.admits_iff w).mp hadmits)

/-! The words of no row: the fixed bits of a row are the op nibble and, where its mask has them, the low nibble or byte. -/

theorem decode_eq_none_iff {w : Word} : decode w = none ↔ ∀ r ∈ opcodeRows, w &&& r.mask ≠ r.code := by
  simp [decode, List.find?_eq_none]

theorem getLsbD_eq_of_extractLsb'_eq {w c : Word} {start len k : Nat}
    (h : w.extractLsb' start len = c.extractLsb' start len) (hk : start ≤ k ∧ k < start + len) :
    w.getLsbD k = c.getLsbD k := by
  obtain ⟨j, rfl⟩ := Nat.exists_eq_add_of_le hk.1
  simpa [BitVec.getLsbD_extractLsb', show j < len by omega] using congrArg (·.getLsbD j) h

/-- A word has fixed bits as soon as it agrees on them with a word that has them. -/
theorem and_mask_of_agree {w c m : Word} (hc : c &&& m = c)
    (h : ∀ k < 16, m.getLsbD k = true → w.getLsbD k = c.getLsbD k) : w &&& m = c := by
  rw [← hc]
  refine BitVec.eq_of_getLsbD_eq fun k hk => ?_
  rw [BitVec.getLsbD_and, BitVec.getLsbD_and]
  cases hm : m.getLsbD k
  · rw [Bool.and_false, Bool.and_false]
  · rw [h k hk hm]

theorem maskF000_iff {w c : Word} (hc : c &&& 0xF000 = c) :
    w &&& 0xF000 = c ↔ w.extractLsb' 12 4 = c.extractLsb' 12 4 := by
  have bits : ∀ k < 16, (0xF000 : Word).getLsbD k = true → 12 ≤ k ∧ k < 12 + 4 := by decide
  exact ⟨op_of_maskF000, fun hop => and_mask_of_agree hc fun k hk hm =>
    getLsbD_eq_of_extractLsb'_eq hop (bits k hk hm)⟩

theorem maskF00F_iff {w c : Word} (hc : c &&& 0xF00F = c) :
    w &&& 0xF00F = c ↔ w.extractLsb' 12 4 = c.extractLsb' 12 4 ∧ w.extractLsb' 0 4 = c.extractLsb' 0 4 := by
  have bits : ∀ k < 16, (0xF00F : Word).getLsbD k = true → (12 ≤ k ∧ k < 12 + 4) ∨ (0 ≤ k ∧ k < 0 + 4) := by decide
  exact ⟨op_of_maskF00F, fun ⟨hop, hn⟩ => and_mask_of_agree hc fun k hk hm =>
    (bits k hk hm).elim (getLsbD_eq_of_extractLsb'_eq hop) (getLsbD_eq_of_extractLsb'_eq hn)⟩

theorem maskF0FF_iff {w c : Word} (hc : c &&& 0xF0FF = c) :
    w &&& 0xF0FF = c ↔ w.extractLsb' 12 4 = c.extractLsb' 12 4 ∧ w.extractLsb' 0 8 = c.extractLsb' 0 8 := by
  have bits : ∀ k < 16, (0xF0FF : Word).getLsbD k = true → (12 ≤ k ∧ k < 12 + 4) ∨ (0 ≤ k ∧ k < 0 + 8) := by decide
  exact ⟨op_of_maskF0FF, fun ⟨hop, hkk⟩ => and_mask_of_agree hc fun k hk hm =>
    (bits k hk hm).elim (getLsbD_eq_of_extractLsb'_eq hop) (getLsbD_eq_of_extractLsb'_eq hkk)⟩

theorem maskFFFF_iff {w c : Word} : w &&& 0xFFFF = c ↔ w = c := by
  rw [show w &&& 0xFFFF = w from BitVec.and_allOnes]

theorem nibble_cases : ∀ a : Nibble, a = 0 ∨ a = 1 ∨ a = 2 ∨ a = 3 ∨ a = 4 ∨ a = 5 ∨ a = 6 ∨ a = 7 ∨ a = 8 ∨ a = 9 ∨
    a = 10 ∨ a = 11 ∨ a = 12 ∨ a = 13 ∨ a = 14 ∨ a = 15 := by decide

/-- Settles O4: op nibble by op nibble, the rows of that nibble leave exactly the tabled words. -/
theorem unknownWordsAreExactlyTheTabledGroups : Obligations.UnknownWordsAreExactlyTheTabledGroups := by
  intro w
  have whole_words : w.extractLsb' 12 4 = 0 ∨ (w ≠ 0x00E0 ∧ w ≠ 0x00EE) :=
    or_iff_not_imp_left.mpr fun h => ⟨by rintro rfl; exact h rfl, by rintro rfl; exact h rfl⟩
  have sub_codes : ∀ n : Nibble, (n ≠ 0 ∧ n ≠ 1 ∧ n ≠ 2 ∧ n ≠ 3 ∧ n ≠ 4 ∧ n ≠ 5 ∧ n ≠ 6 ∧ n ≠ 7 ∧ n ≠ 14) ↔
      n ∈ [0x8#4, 0x9#4, 0xA#4, 0xB#4, 0xC#4, 0xD#4, 0xF#4] := by decide
  rw [decode_eq_none_iff, ← sub_codes]
  simp (disch := decide) only [opcodeRows, opcodeRows1, opcodeRows2, opcodeRows3, rowNNN, rowXKK, rowXYS, rowXSS,
    List.cons_append, List.nil_append, List.forall_mem_cons, ne_eq, maskFFFF_iff, maskF000_iff, maskF00F_iff, maskF0FF_iff,
    List.not_mem_nil, false_implies, implies_true, and_true, BitVec.reduceExtractLsb']
  clear sub_codes
  generalize w.extractLsb' 12 4 = op at *
  rcases nibble_cases op with rfl | rfl | rfl | rfl | rfl | rfl | rfl | rfl | rfl | rfl | rfl | rfl | rfl | rfl | rfl |
    rfl <;> simp_all

/-- Settles O5: fixed words, by evaluation of the decoder. -/
theorem sampleWordsDecode : Obligations.SampleWordsDecode := by
  unfold Obligations.SampleWordsDecode
  decide

end Sys2Proof
end

section
/-! EXECUTE said once: an instruction raises the fault of its row of rule R221 or it completes, in the state written here.
`execWith` and `exec` are tied to it by `execWith_eq` and `exec_eq`; what EXECUTE leaves unchanged is then read off it. -/

namespace Sys2Proof.Machine

/-- The state an instruction leaves when it completes, with the random byte `rnd` for `Cxkk`. -/
def completed (rnd : Byte) (i : Instr) (s : State) : State :=
  match i with
  | .cls => s.commit (List.replicate Config.fbBytes 0x00)
  | .ret => s.dropNewest.setPc (s.stack.getLastD 0)
  | .jp nnn => s.setPc (zextAddr nnn)
  | .call nnn => (s.push s.pc).setPc (zextAddr nnn)
  | .jpV0 nnn => s.setPc (zextAddr nnn + zextByte (s.reg 0x0))
  | .ldImm x kk => s.setReg x kk
  | .addImm x kk => s.setReg x (trunc8 ((s.reg x).toNat + kk.toNat))
  | .ldReg x y => s.setReg x (s.reg y)
  | .orReg x y => s.setReg x (s.reg x ||| s.reg y)
  | .andReg x y => s.setReg x (s.reg x &&& s.reg y)
  | .xorReg x y => s.setReg x (s.reg x ^^^ s.reg y)
  | .addReg x y => s.setResultAndFlag x (trunc8 ((s.reg x).toNat + (s.reg y).toNat)) (carryFlag (s.reg x) (s.reg y))
  | .subReg x y =>
    s.setResultAndFlag x (trunc8 ((s.reg x).toNat + 256 - (s.reg y).toNat)) (noBorrowFlag (s.reg x) (s.reg y))
  | .shr x y => shiftRight Config.shiftSource x y s
  | .subnReg x y =>
    s.setResultAndFlag x (trunc8 ((s.reg y).toNat + 256 - (s.reg x).toNat)) (noBorrowFlag (s.reg y) (s.reg x))
  | .shl x y => shiftLeft Config.shiftSource x y s
  | .ldI nnn => s.setI (zextAddr nnn)
  | .rnd x kk => s.setReg x (rnd &&& kk)
  | .drw x y n => (s.commit (s.drawn x y n).fb).setReg vf (flagByte (s.drawn x y n).hit)
  | .ldVxDt x => s.setReg x s.dt
  | .ldDtVx x => s.setDt (s.reg x)
  | .ldStVx x => s.setSt (s.reg x)
  | .addI x => s.setI (trunc16 (s.i.toNat + (s.reg x).toNat))
  | .ldF x => s.setI (glyphAddress (s.reg x).toNat)
  | .ldB x => s.store s.base (decimalDigits (s.reg x))
  | .stRegs x => s.store s.base (s.regRange x)
  | .ldRegs x => s.loadRange x s.base
  | i => s.setPc (if skips s i then s.pc + 2 else s.pc)

/-- The state EXECUTE leaves (rules R86, R221, R223). -/
def executed (rnd : Byte) (i : Instr) (s : State) : State :=
  match faultCodeOf s i with
  | some code => haltedWith s code (encode i)
  | none => completed rnd i s

theorem executed_of_faults {i : Instr} {s : State} {code : BitVec 3} (h : faultCodeOf s i = some code) (rnd : Byte) :
    executed rnd i s = haltedWith s code (encode i) := by
  rw [executed, h]

theorem executed_of_completes {i : Instr} {s : State} (h : faultCodeOf s i = none) (rnd : Byte) :
    executed rnd i s = completed rnd i s := by
  rw [executed, h]

/-- A meaning that checks `c` and then completes or raises its fault is `executed`. -/
theorem guarded_eq_executed {c : Prop} [Decidable c] {f : Fault} {i : Instr} {s : State} (rnd : Byte)
    (h : faultCodeOf s i = if c then none else some f.code) :
    (if c then .next (completed rnd i s) else raiseIn i f s) = .next (executed rnd i s) := by
  by_cases hc : c
  · rw [if_pos hc, executed_of_completes (h.trans (if_pos hc))]
  · rw [if_neg hc, executed_of_faults (h.trans (if_neg hc))]
    rfl

/-! The rows of rule R221 are the checks of the meanings (rule R42). -/

theorem ite_some_eq_ite_none {p c : Prop} [Decidable p] [Decidable c] (h : p ↔ ¬ c) (code : BitVec 3) :
    (if p then some code else none) = if c then none else some code :=
  (if_congr h rfl rfl).trans (ite_not ..)

theorem faultCodeOf_drw (s : State) (x y n : Nibble) :
    faultCodeOf s (.drw x y n) = if inRange s.base n.toNat then none else some 7 :=
  ite_some_eq_ite_none (by rw [inRange_iff, State.base]; omega) 7

theorem faultCodeOf_stRegs (s : State) (x : Nibble) :
    faultCodeOf s (.stRegs x) = if inRange s.base (rangeSize x) then none else some 7 :=
  ite_some_eq_ite_none (by rw [inRange_iff, State.base, rangeSize]; omega) 7

theorem faultCodeOf_ldRegs (s : State) (x : Nibble) :
    faultCodeOf s (.ldRegs x) = if inRange s.base (rangeSize x) then none else some 7 := faultCodeOf_stRegs s x

theorem faultCodeOf_ldB (s : State) (x : Nibble) :
    faultCodeOf s (.ldB x) = if inRange s.base 3 then none else some 7 :=
  ite_some_eq_ite_none (by rw [inRange_iff, State.base]; omega) 7

theorem faultCodeOf_ldF (s : State) (x : Nibble) :
    faultCodeOf s (.ldF x) = if (s.reg x).toNat < 16 then none else some 5 :=
  ite_some_eq_ite_none (by omega) 5

theorem State.keyOf_of_gt {s : State} {x : Nibble} (h : 15 < (s.reg x).toNat) : s.keyOf x = none :=
  if_neg (Nat.not_le.mpr h)

theorem faultCodeOf_call (s : State) (nnn : Addr) :
    faultCodeOf s (.call nnn) = if s.stack.length < 16 then none else some 2 := rfl

theorem faultCodeOf_ret (s : State) : faultCodeOf s .ret = if s.stack.length = 0 then some 3 else none := rfl

theorem faultCodeOf_skp (s : State) (x : Nibble) :
    faultCodeOf s (.skp x) = if 15 < (s.reg x).toNat then some 6 else none := rfl

theorem faultCodeOf_sknp (s : State) (x : Nibble) :
    faultCodeOf s (.sknp x) = if 15 < (s.reg x).toNat then some 6 else none := rfl

/-- The key flag `Vx` selects, as the list access of `skips` (rule R160). -/
theorem State.key_of_keyOf {s : State} {x : Nibble} (h : ¬ 15 < (s.reg x).toNat) :
    ∃ pressed, s.keyOf x = some pressed ∧ s.key[(s.reg x).toNat]? = some pressed := by
  have hk : (s.reg x).toNat < 16 := by omega
  refine ⟨_, if_pos (Nat.not_lt.mp h), ?_⟩
  simp [State.keyAt, Nat.mod_eq_of_lt hk, Vector.getElem?_eq_getElem hk]

theorem execWith_eq (rnd : Byte) (i : Instr) (s : State) : execWith rnd i s = .next (executed rnd i s) := by
  cases i
  case drw x y n => exact guarded_eq_executed rnd (faultCodeOf_drw s x y n)
  case stRegs x => exact guarded_eq_executed rnd (faultCodeOf_stRegs s x)
  case ldRegs x => exact guarded_eq_executed rnd (faultCodeOf_ldRegs s x)
  case ldB x => exact guarded_eq_executed rnd (faultCodeOf_ldB s x)
  case ldF x => exact guarded_eq_executed rnd (faultCodeOf_ldF s x)
  case call nnn =>
    have h := guarded_eq_executed (i := .call nnn) (c := s.stack.length < 16) (f := .stackOverflow) rnd
      (faultCodeOf_call s nnn)
    rw [← h, ← ite_not]
    exact if_congr Nat.not_lt.symm rfl rfl
  case ret =>
    rcases hs : s.stack.getLast? with _ | a
    · have h : s.stack = [] := List.getLast?_eq_none_iff.mp hs
      rw [executed_of_faults (code := 3) (by rw [faultCodeOf_ret, h]; rfl)]
      simp only [execWith, exec, execRet, hs]
      rfl
    · have h : s.stack ≠ [] := by rintro h; simp [h] at hs
      rw [executed_of_completes (by simp [faultCodeOf_ret, h])]
      simp only [execWith, exec, execRet, hs, completed, List.getLastD_eq_getLast?, Option.getD_some]
  case skp x | sknp x =>
    simp only [execWith, exec, execSkp, execSknp]
    by_cases h : 15 < (s.reg x).toNat
    · rw [State.keyOf_of_gt h, executed_of_faults (code := 6) (by simp [faultCodeOf_skp, faultCodeOf_sknp, h])]
      rfl
    · obtain ⟨pressed, hkey, hlist⟩ := State.key_of_keyOf h
      rw [hkey, executed_of_completes (by simp [faultCodeOf_skp, faultCodeOf_sknp, h])]
      simp only [completed, skips, hlist, Option.getD_some, skipIf_eq, State.setPc]
  case seImm | sneImm | seReg | sneReg => exact congrArg Host.Outcome.next (skipIf_eq _ s)
  all_goals rfl

/-- What holds of the state a fault leaves and of the completed state holds of the state EXECUTE leaves. -/
theorem executed_induction {P : State → Prop} {rnd : Byte} {i : Instr} {s : State}
    (faults : ∀ code, faultCodeOf s i = some code → P (haltedWith s code (encode i)))
    (completes : faultCodeOf s i = none → P (completed rnd i s)) : P (executed rnd i s) := by
  rcases h : faultCodeOf s i with _ | code
  · rw [executed_of_completes h]
    exact completes h
  · rw [executed_of_faults h]
    exact faults code h

/-! ### What a completing instruction leaves unchanged -/

section
variable (rnd : Byte) (i : Instr) (s : State)

@[simp] theorem completed_key : (completed rnd i s).key = s.key := by
  cases i <;> simp [completed, shiftRight, shiftLeft]

@[simp] theorem completed_run : (completed rnd i s).run = s.run := by
  cases i <;> simp [completed, shiftRight, shiftLeft]

@[simp] theorem completed_err : (completed rnd i s).err = s.err := by
  cases i <;> simp [completed, shiftRight, shiftLeft]

@[simp] theorem completed_draws : (completed rnd i s).draws = s.draws := by
  cases i <;> simp [completed, shiftRight, shiftLeft]

end

/-- Rule R49: the four forms that write memory. -/
theorem completed_mem {i : Instr} (rnd : Byte) (s : State) (hst : ∀ x, i ≠ .stRegs x) (hb : ∀ x, i ≠ .ldB x)
    (hdrw : ∀ x y n, i ≠ .drw x y n) (hcls : i ≠ .cls) : (completed rnd i s).mem = s.mem := by
  cases i
  case stRegs x => exact absurd rfl (hst x)
  case ldB x => exact absurd rfl (hb x)
  case drw x y n => exact absurd rfl (hdrw x y n)
  case cls => exact absurd rfl hcls
  case ldRegs => exact State.loadRange_mem s _ _
  all_goals rfl

/-- Rule R17: the two forms that touch the stack. -/
theorem completed_stack {i : Instr} (rnd : Byte) (s : State) (hcall : ∀ nnn, i ≠ .call nnn) (hret : i ≠ .ret) :
    (completed rnd i s).stack = s.stack := by
  cases i
  case call nnn => exact absurd rfl (hcall nnn)
  case ret => exact absurd rfl hret
  case cls | drw | ldRegs => simp [completed]
  all_goals rfl

/-- Rule R14: the three forms that write `I`. -/
theorem completed_i {i : Instr} (rnd : Byte) (s : State) (hldI : ∀ nnn, i ≠ .ldI nnn) (hldF : ∀ x, i ≠ .ldF x)
    (hadd : ∀ x, i ≠ .addI x) : (completed rnd i s).i = s.i := by
  cases i
  case ldI nnn => exact absurd rfl (hldI nnn)
  case ldF x => exact absurd rfl (hldF x)
  case addI x => exact absurd rfl (hadd x)
  case cls | drw | ldRegs => simp [completed]
  all_goals rfl

/-- Rule R11: the registers an instruction may write. -/
theorem completed_reg {i : Instr} {r : Nibble} (rnd : Byte) (s : State) (h : writesReg i r = false) :
    (completed rnd i s).reg r = s.reg r := by
  cases i
  case addReg x y | subReg x y | subnReg x y | shr x y | shl x y =>
    simp only [writesReg, Bool.or_eq_false_iff, beq_eq_false_iff_ne] at h
    exact s.reg_setResultAndFlag_of_ne h.1 h.2 _ _
  case drw x y n =>
    have hr : r ≠ vf := beq_eq_false_iff_ne.mp h
    simp only [completed, State.reg_setReg_of_ne _ hr, State.reg_commit]
  case ldRegs x =>
    have hr : ¬ r.toNat ≤ x.toNat := by simpa [writesReg] using h
    simp only [completed, State.reg_loadRange, if_neg hr]
  case ldImm | addImm | ldReg | orReg | andReg | xorReg | rnd | ldVxDt =>
    exact s.reg_setReg_of_ne (by simpa [writesReg] using h) _
  case cls => simp [completed]
  all_goals rfl

theorem skip_toNat {a : Nat} {pc : Word} (hpc : pc.toNat = a + 2) (ha : a ≤ 0xFFE) (c : Bool) :
    (if c then pc + 2 else pc).toNat = if c then a + 4 else a + 2 := by
  split
  · rw [BitVec.toNat_add, hpc]
    exact Nat.mod_eq_of_lt (show a + 4 < 2 ^ 16 by omega)
  · exact hpc

theorem jpV0_target_toNat (nnn : Addr) (b : Byte) : (zextAddr nnn + zextByte b).toNat = nnn.toNat + b.toNat := by
  have := nnn.isLt
  have := b.isLt
  rw [BitVec.toNat_add, zextAddr_toNat, zextByte_toNat, Nat.mod_eq_of_lt (by omega)]

/-- Rule R16, read in EXECUTE, where `PC` is the address of the instruction plus two. -/
theorem completed_pc_toNat {a : Nat} {s : State} (rnd : Byte) (i : Instr) (hpc : s.pc.toNat = a + 2) (ha : a ≤ 0xFFE) :
    (completed rnd i s).pc.toNat = pcAfter s a i := by
  cases i
  case jp nnn | call nnn => exact zextAddr_toNat nnn
  case ret => rfl
  case jpV0 nnn => exact jpV0_target_toNat nnn (s.reg 0)
  case seImm | sneImm | seReg | sneReg | skp | sknp => exact skip_toNat hpc ha _
  case cls | drw | ldRegs => exact Eq.trans (congrArg BitVec.toNat (by simp [completed])) hpc
  all_goals exact hpc

/-! ### What EXECUTE leaves unchanged, whether it faults or completes -/

section
variable (rnd : Byte) (i : Instr) (s : State)

@[simp] theorem executed_key : (executed rnd i s).key = s.key :=
  executed_induction (P := fun t => t.key = s.key) (fun _ _ => rfl) fun _ => completed_key rnd i s

@[simp] theorem executed_draws : (executed rnd i s).draws = s.draws :=
  executed_induction (P := fun t => t.draws = s.draws) (fun _ _ => rfl) fun _ => completed_draws rnd i s

end

/-- Every fault of rule R221 has a code a STEP can raise: not `MemoryFull`, and not 0. -/
theorem two_le_of_faultCodeOf {s : State} {i : Instr} {code : BitVec 3} (h : faultCodeOf s i = some code) :
    2 ≤ code.toNat := by
  cases i
  case call =>
    obtain ⟨-, ⟨⟩⟩ := Option.ite_none_left_eq_some.mp h
    decide
  case ret | ldF | skp | sknp | stRegs | ldRegs | ldB | drw =>
    obtain ⟨-, ⟨⟩⟩ := Option.ite_none_right_eq_some.mp h
    decide
  all_goals exact nomatch (show none = some code from h)

/-! ### `exec`, in which a free value stands for the byte (log 4) -/

/-- `draws` after `exec`: `Cxkk` alone takes a free value. -/
def drawsAfter (i : Instr) (s : State) : Nat :=
  match i with
  | .rnd _ _ => s.draws + 1
  | _ => s.draws

theorem drawsAfter_of_ne {i : Instr} (h : ∀ x kk, i ≠ .rnd x kk) (s : State) : drawsAfter i s = s.draws := by
  unfold drawsAfter
  split
  · exact absurd rfl (h _ _)
  · rfl

theorem exec_eq_executed {i : Instr} (h : ∀ x kk, i ≠ .rnd x kk) (rnd : Byte) (s : State) :
    exec i s = .next (executed rnd i s) := by
  rw [← execWith_eq_exec rnd s h, execWith_eq]

theorem exec_eq (i : Instr) (s : State) :
    exec i s = .next { executed (Config.randomByte s.draws) i s with draws := drawsAfter i s } := by
  by_cases h : ∃ x kk, i = .rnd x kk
  · obtain ⟨x, kk, rfl⟩ := h
    rfl
  · have h : ∀ x kk, i ≠ .rnd x kk := fun x kk e => h ⟨x, kk, e⟩
    generalize Config.randomByte s.draws = rnd
    rw [exec_eq_executed h rnd, drawsAfter_of_ne h, ← executed_draws rnd i s]

/-- Everything EXECUTE can do: the fault of the instruction's row of rule R221, or its completion. -/
theorem exec_cases (i : Instr) (s : State) :
    (∃ code, faultCodeOf s i = some code ∧ exec i s = .next (haltedWith s code (encode i))) ∨
    (faultCodeOf s i = none ∧
      exec i s = .next { completed (Config.randomByte s.draws) i s with draws := drawsAfter i s }) := by
  rw [exec_eq]
  rcases h : faultCodeOf s i with _ | code
  · exact .inr ⟨rfl, by rw [executed_of_completes h]⟩
  · refine .inl ⟨code, rfl, ?_⟩
    rw [executed_of_faults h, drawsAfter_of_ne (by rintro x kk rfl; cases h)]
    rfl

end Sys2Proof.Machine
end

section
/-! One STEP said once: its five phases around any EXECUTE phase (rules R81 to R86), and the state it leaves. -/

namespace Sys2Proof.Machine

/-- Everything a step can do around an EXECUTE phase, in the words of the rules. -/
theorem stepBy_phases (execute : Instr → State → Host.Outcome State Fault Refusal) (s : State) :
    (s.run = .halted ∧ stepBy execute s = .next s) ∨
    (s.run ≠ .halted ∧ 0xFFE < s.pc.toNat ∧ stepBy execute s = .next (haltedWith s 7 s.pc)) ∨
    (s.run ≠ .halted ∧ s.pc.toNat ≤ 0xFFE ∧ decode (fetchedWord s) = none ∧
      stepBy execute s = .next (haltedWith (advancedAndTicked s) 4 (fetchedWord s))) ∨
    (s.run ≠ .halted ∧ s.pc.toNat ≤ 0xFFE ∧
      ∃ i, decode (fetchedWord s) = some i ∧ stepBy execute s = execute i (advancedAndTicked s)) := by
  have h := stepBy_cases execute s
  rwa [s.wordAtPc_eq_fetchedWord] at h

/-- Settles O6: the four cases of `stepBy_phases`, for both EXECUTE phases. -/
theorem stepPerformsFivePhases : Obligations.StepPerformsFivePhases := by
  intro s rnd phases
  have of_stepBy (execute) : stepBy execute s = phases execute := by
    rcases stepBy_phases execute s with ⟨hrun, e⟩ | ⟨hrun, hpc, e⟩ | ⟨hrun, hpc, hd, e⟩ | ⟨hrun, hpc, i, hd, e⟩
    · simp only [e, phases, hrun, if_true]
    · simp only [e, phases, hrun, hpc, if_true, if_false]
    · simp only [e, phases, hrun, Nat.not_lt.mpr hpc, hd, if_false]
    · simp only [e, phases, hrun, Nat.not_lt.mpr hpc, hd, if_false]
  exact ⟨of_stepBy exec, of_stepBy (execWith rnd)⟩

theorem stepBy_of_beyond {s : State} (execute : Instr → State → Host.Outcome State Fault Refusal)
    (hrun : s.run ≠ .halted) (hpc : 0xFFE < s.pc.toNat) : stepBy execute s = .next (haltedWith s 7 s.pc) := by
  rcases stepBy_phases execute s with ⟨h, -⟩ | ⟨-, -, e⟩ | ⟨-, h, -⟩ | ⟨-, h, -⟩
  · exact absurd h hrun
  · exact e
  · exact absurd h (Nat.not_le.mpr hpc)
  · exact absurd h (Nat.not_le.mpr hpc)

theorem stepBy_of_unknown {s : State} (execute : Instr → State → Host.Outcome State Fault Refusal)
    (hrun : s.run ≠ .halted) (hpc : s.pc.toNat ≤ 0xFFE) (hd : decode (fetchedWord s) = none) :
    stepBy execute s = .next (haltedWith (advancedAndTicked s) 4 (fetchedWord s)) := by
  rcases stepBy_phases execute s with ⟨h, -⟩ | ⟨-, h, -⟩ | ⟨-, -, -, e⟩ | ⟨-, -, j, h, -⟩
  · exact absurd h hrun
  · exact absurd hpc (Nat.not_le.mpr h)
  · exact e
  · exact nomatch hd.symm.trans h

theorem stepBy_of_decode {s : State} {i : Instr} (execute : Instr → State → Host.Outcome State Fault Refusal)
    (hrun : s.run ≠ .halted) (hpc : s.pc.toNat ≤ 0xFFE) (hd : decode (fetchedWord s) = some i) :
    stepBy execute s = execute i (advancedAndTicked s) := by
  rcases stepBy_phases execute s with ⟨h, -⟩ | ⟨-, h, -⟩ | ⟨-, -, h, -⟩ | ⟨-, -, j, h, e⟩
  · exact absurd h hrun
  · exact absurd hpc (Nat.not_le.mpr h)
  · rw [hd] at h
    cases h
  · rw [hd] at h
    cases h
    exact e

/-- Settles O7: the case of `stepBy_phases` in which an instruction runs. -/
theorem stepRunsDecodedInstruction : Obligations.StepRunsDecodedInstruction := fun _ _ hrun hpc hd _ =>
  ⟨stepBy_of_decode exec hrun hpc hd, fun rnd => stepBy_of_decode (execWith rnd) hrun hpc hd⟩

/-! ### The state a STEP leaves -/

/-- The state a STEP that carries the byte `rnd` leaves (rules R81 to R86, R223, R225). -/
def afterStep (rnd : Byte) (s : State) : State :=
  if s.run = .halted then s
  else if 0xFFE < s.pc.toNat then haltedWith s 7 s.pc
  else match decode (fetchedWord s) with
    | some i => executed rnd i (advancedAndTicked s)
    | none => haltedWith (advancedAndTicked s) 4 (fetchedWord s)

theorem stepWith_eq (rnd : Byte) (s : State) : stepWith rnd s = .next (afterStep rnd s) := by
  have h := (stepPerformsFivePhases s rnd).2
  simp only [execWith_eq] at h
  rw [h, afterStep]
  split_ifs
  · rfl
  · rfl
  · rcases decode (fetchedWord s) with _ | i <;> rfl

/-- Everything a STEP can do. -/
theorem afterStep_cases (rnd : Byte) (s : State) :
    (s.run = .halted ∧ afterStep rnd s = s) ∨
    (s.run ≠ .halted ∧ 0xFFE < s.pc.toNat ∧ afterStep rnd s = haltedWith s 7 s.pc) ∨
    (s.run ≠ .halted ∧ s.pc.toNat ≤ 0xFFE ∧ decode (fetchedWord s) = none ∧
      afterStep rnd s = haltedWith (advancedAndTicked s) 4 (fetchedWord s)) ∨
    (s.run ≠ .halted ∧ s.pc.toNat ≤ 0xFFE ∧
      ∃ i, decode (fetchedWord s) = some i ∧ afterStep rnd s = executed rnd i (advancedAndTicked s)) := by
  have h := stepBy_phases (execWith rnd) s
  have hstep : stepBy (execWith rnd) s = .next (afterStep rnd s) := stepWith_eq rnd s
  simpa only [hstep, execWith_eq, Host.Outcome.next.injEq] using h

theorem afterStep_of_halted {s : State} (rnd : Byte) (h : s.run = .halted) : afterStep rnd s = s := if_pos h

theorem afterStep_of_beyond {s : State} (rnd : Byte) (hrun : s.run ≠ .halted) (hpc : 0xFFE < s.pc.toNat) :
    afterStep rnd s = haltedWith s 7 s.pc := by
  rw [afterStep, if_neg hrun, if_pos hpc]

theorem afterStep_of_unknown {s : State} (rnd : Byte) (hrun : s.run ≠ .halted) (hpc : s.pc.toNat ≤ 0xFFE)
    (hd : decode (fetchedWord s) = none) :
    afterStep rnd s = haltedWith (advancedAndTicked s) 4 (fetchedWord s) := by
  rw [afterStep, if_neg hrun, if_neg (Nat.not_lt.mpr hpc), hd]

theorem afterStep_of_decode {s : State} {i : Instr} (rnd : Byte) (hrun : s.run ≠ .halted) (hpc : s.pc.toNat ≤ 0xFFE)
    (hd : decode (fetchedWord s) = some i) : afterStep rnd s = executed rnd i (advancedAndTicked s) := by
  rw [afterStep, if_neg hrun, if_neg (Nat.not_lt.mpr hpc), hd]

theorem afterStep_draws (rnd : Byte) (s : State) : (afterStep rnd s).draws = s.draws := by
  rcases afterStep_cases rnd s with ⟨-, e⟩ | ⟨-, -, e⟩ | ⟨-, -, -, e⟩ | ⟨-, -, i, -, e⟩
  · rw [e]
  · rw [e, haltedWith]
  · rw [e, haltedWith, advancedAndTicked]
  · rw [e, executed_draws, advancedAndTicked]

/-- The host's `step` leaves the state of the STEP that carries the next free byte, but for `draws` (log 4). -/
theorem step_eq (s : State) :
    ∃ d, step s = .next { afterStep (Config.randomByte s.draws) s with draws := d } := by
  have h := (stepPerformsFivePhases s 0).1
  simp only [exec_eq] at h
  rw [h, afterStep]
  split_ifs
  · exact ⟨s.draws, rfl⟩
  · exact ⟨s.draws, rfl⟩
  · rcases decode (fetchedWord s) with _ | i
    · exact ⟨s.draws, rfl⟩
    · exact ⟨drawsAfter i (advancedAndTicked s), rfl⟩

/-- What `exec` leaves, whatever the instruction. -/
theorem eq_of_exec {i : Instr} {s t : State} (h : exec i s = .next t) :
    ∃ rnd d, t = { executed rnd i s with draws := d } :=
  ⟨_, _, (Host.Outcome.next.inj ((exec_eq i s).symm.trans h)).symm⟩

/-- What the host's `step` leaves, from every state. -/
theorem eq_of_step {s t : State} (h : step s = .next t) : ∃ rnd d, t = { afterStep rnd s with draws := d } := by
  obtain ⟨d, e⟩ := step_eq s
  exact ⟨_, d, (Host.Outcome.next.inj (e.symm.trans h)).symm⟩

theorem transact_step (rnd : Byte) (s : State) :
    transact (.step rnd) s = .next (afterStep rnd s, stepReply (afterStep rnd s)) := by
  rw [transact, transactStep, stepWith_eq]

/-- Settles O9: `exec_eq`, `step_eq` and `stepWith_eq` name the next state. -/
theorem everyStepAnswersNext : Obligations.EveryStepAnswersNext :=
  ⟨fun i s => ⟨_, exec_eq i s⟩, fun s => ⟨(step_eq s).imp' _ fun _ e => e, fun rnd => ⟨_, stepWith_eq rnd s⟩⟩⟩

/-- Settles O10: the reply is read from the state the STEP leaves. -/
theorem stepReturnsOkOrTheFault : Obligations.StepReturnsOkOrTheFault := by
  intro s rnd _
  refine ⟨_, stepWith_eq rnd s, fun h => ?_, fun h => ?_⟩
  · rw [transact_step, stepReply, if_neg h]
  · rw [transact_step, stepReply, if_pos h]

end Sys2Proof.Machine
end

section
/-! The invariant of the machine: EXECUTE keeps it from a state whose `PC` was advanced from a fetchable address, every
other part of a step and of a transaction keeps it from any state. -/

namespace Sys2Proof.Machine

theorem Inv.reset : Inv State.reset :=
  ⟨rfl, Nat.zero_le _, nofun, by decide, fun _ => rfl, nofun⟩

/-- The counter `draws` is no part of the invariant (log 4). -/
theorem Inv.with_draws {s : State} (h : Inv s) (d : Nat) : Inv { s with draws := d } :=
  ⟨h.mem_wf, h.stack_le, h.stack_addr, h.pc_le, h.err_clear, h.err_set⟩

/-- A fault a STEP can raise sets `ERR` (rule R223). -/
theorem Inv.haltedWith {s : State} (h : Inv s) {code : BitVec 3} (hcode : 2 ≤ code.toNat) (info : Word) :
    Inv (haltedWith s code info) :=
  ⟨h.mem_wf, h.stack_le, h.stack_addr, h.pc_le, fun hrun => absurd rfl hrun, fun _ => hcode⟩

/-- ADVANCE from a fetchable address (rules R84, R85). -/
theorem advancedAndTicked_pc_toNat {s : State} (hpc : s.pc.toNat ≤ 0xFFE) :
    (advancedAndTicked s).pc.toNat = s.pc.toNat + 2 := by
  have h : (s.pc + 2).toNat = (s.pc.toNat + 2) % 2 ^ 16 := BitVec.toNat_add s.pc 2
  exact h.trans (Nat.mod_eq_of_lt (by omega))

theorem Inv.advancedAndTicked {s : State} (h : Inv s) (hpc : s.pc.toNat ≤ 0xFFE) : Inv (advancedAndTicked s) :=
  ⟨h.mem_wf, h.stack_le, h.stack_addr, by rw [advancedAndTicked_pc_toNat hpc]; omega, h.err_clear, h.err_set⟩

/-- Every store of an instruction lies inside the address space (rules R42, R175). -/
theorem completed_mem_wf {i : Instr} {s : State} (rnd : Byte) (hfault : faultCodeOf s i = none) (h : s.mem.wf = true) :
    (completed rnd i s).mem.wf = true := by
  have inside {n : Nat} (bs : List Byte) (hn : bs.length = n + 1)
      (hin : (if inRange s.base (n + 1) then none else some (7 : BitVec 3)) = none) :
      (s.mem.writeBytes s.base bs).wf = true := by
    have := (inRange_iff _ _).mp (by simpa using hin)
    exact Memory.wf_writeBytes bs h (by omega)
  have screen (fb : List Byte) (hfb : fb.length = 256) : (s.commit fb).mem.wf = true := by
    rw [State.commit_mem]
    exact Memory.wf_writeBytes fb h (by rw [hfb]; decide)
  cases i
  case cls => simpa only [completed] using screen (List.replicate Config.fbBytes 0x00) (by rw [List.length_replicate]; rfl)
  case drw x y n => simpa only [completed, State.setReg_mem] using screen _ (s.length_drawn x y n)
  case ldB x => exact inside _ rfl (faultCodeOf_ldB s x ▸ hfault)
  case stRegs x => exact inside _ (s.length_regRange x) (faultCodeOf_stRegs s x ▸ hfault)
  case ldRegs x => simpa only [completed, State.loadRange_mem] using h
  all_goals exact h

/-- What a completing instruction does to the stack: nothing, a return, or a call on a stack with room. -/
theorem completed_stack_cases {i : Instr} {s : State} (rnd : Byte) (hfault : faultCodeOf s i = none) :
    (completed rnd i s).stack = s.stack ∨ (completed rnd i s).stack = s.stack.dropLast ∨
    (s.stack.length < 16 ∧ (completed rnd i s).stack = s.stack ++ [s.pc]) := by
  cases i
  case call nnn => exact .inr (.inr ⟨by simpa [faultCodeOf_call] using hfault, rfl⟩)
  case ret => exact .inr (.inl rfl)
  all_goals exact .inl (completed_stack rnd s nofun nofun)

/-- Rule R15: where an instruction can lead, with the targets of rule R16. -/
theorem pcAfter_le {s : State} {a : Nat} (i : Instr) (hstack : ∀ r ∈ s.stack, r.toNat ≤ 0x1000) (ha : a ≤ 0xFFE) :
    pcAfter s a i ≤ 0x10FE := by
  have skip_le (c : Bool) : (if c then a + 4 else a + 2) ≤ 0x10FE := by split <;> omega
  cases i
  case jp nnn | call nnn => exact le_trans nnn.isLt.le (by decide)
  case ret =>
    have popped : (s.stack.getLastD 0).toNat ≤ 0x1000 := by
      rcases List.eq_nil_or_concat s.stack with hs | ⟨rs, r, hs⟩
      · simp [hs]
      · have := hstack r (by simp [hs])
        simpa [hs] using this
    exact le_trans popped (by decide)
  case jpV0 nnn =>
    have := nnn.isLt
    have := (s.reg 0).isLt
    exact show nnn.toNat + (s.reg 0).toNat ≤ 0x10FE by omega
  case seImm | sneImm | seReg | sneReg | skp | sknp => exact skip_le _
  all_goals exact show a + 2 ≤ 0x10FE by omega

/-- EXECUTE keeps the invariant, where ADVANCE has left `PC` at most `0x1000`. -/
theorem Inv.executed {s : State} {a : Nat} (h : Inv s) (hrun : s.run ≠ .halted) (hpc : s.pc.toNat = a + 2)
    (ha : a ≤ 0xFFE) (rnd : Byte) (i : Instr) : Inv (executed rnd i s) := by
  refine executed_induction (fun code hcode => h.haltedWith (two_le_of_faultCodeOf hcode) _) fun hfault => ?_
  have hstack := completed_stack_cases rnd hfault
  refine ⟨completed_mem_wf rnd hfault h.mem_wf, ?_, ?_, ?_, fun _ => ?_, fun hhalt => ?_⟩
  · have := h.stack_le
    rcases hstack with e | e | ⟨room, e⟩ <;> simp [e] <;> omega
  · rcases hstack with e | e | ⟨-, e⟩ <;> rw [e]
    · exact h.stack_addr
    · exact fun r hr => h.stack_addr r (List.mem_of_mem_dropLast hr)
    · intro r hr
      rcases List.mem_append.mp hr with hr | hr
      · exact h.stack_addr r hr
      · rw [List.mem_singleton.mp hr, hpc]
        omega
  · rw [completed_pc_toNat rnd i hpc ha]
    exact pcAfter_le i h.stack_addr ha
  · rw [completed_err, h.err_clear hrun]
  · exact absurd (completed_run rnd i s ▸ hhalt) hrun

theorem Inv.afterStep {s : State} (h : Inv s) (rnd : Byte) : Inv (afterStep rnd s) := by
  rcases afterStep_cases rnd s with ⟨-, e⟩ | ⟨-, -, e⟩ | ⟨-, hpc, -, e⟩ | ⟨hrun, hpc, i, -, e⟩ <;> rw [e]
  · exact h
  · exact h.haltedWith (by decide) _
  · exact (h.advancedAndTicked hpc).haltedWith (by decide) _
  · exact (h.advancedAndTicked hpc).executed hrun (advancedAndTicked_pc_toNat hpc) hpc rnd i

/-- Settles O13: a host's `step` is a STEP but for `draws`, and a STEP keeps the invariant. -/
theorem stepKeepsInv : Obligations.StepKeepsInv := by
  intro s t h hstep
  obtain ⟨rnd, d, rfl⟩ := eq_of_step hstep
  exact (h.afterStep rnd).with_draws d

/-- Settles O12. -/
theorem invHoldsAtReset : Obligations.InvHoldsAtReset := Inv.reset

theorem transact_load_of_not_empty (rom : List Byte) {s : State} (hrun : s.run ≠ .empty) :
    transact (.load rom) s = .refused .loadNotEmpty := if_neg hrun

theorem transact_load_of_too_long {rom : List Byte} {s : State} (hrun : s.run = .empty)
    (hlong : 0xF00 < 0x200 + rom.length) : transact (.load rom) s = .next (s, .memoryFull) :=
  (if_pos hrun).trans (if_neg fun e => Nat.not_le.mpr hlong (of_decide_eq_true e))

theorem transact_load_of_fits {rom : List Byte} {s : State} (hrun : s.run = .empty)
    (hfits : 0x200 + rom.length ≤ 0xF00) : transact (.load rom) s = .next (s.loaded rom, .ok) :=
  (if_pos hrun).trans (if_pos (decide_eq_true hfits))

/-- The memory a LOAD leaves: font, ROM and a clear screen written over the one before (rule R252). -/
def loadedMem (m : Memory) (rom : List Byte) : Memory :=
  ((m.writeBytes Config.fontBase Config.font).writeBytes Config.entry rom).writeBytes Config.displayBase
    (List.replicate Config.fbBytes 0x00)

theorem State.loaded_eq (s : State) (rom : List Byte) :
    s.loaded rom = { s with mem := loadedMem s.mem rom, run := .ready } := by
  simp only [State.loaded, State.store, loadedMem]

/-- Everything a LOAD that has a transition can do (rules R202, R252, R253). -/
theorem eq_of_load {rom : List Byte} {s t : State} {r : Reply} (h : transact (.load rom) s = .next (t, r)) :
    s.run = .empty ∧ ((t = s ∧ r = .memoryFull) ∨
      (0x200 + rom.length ≤ 0xF00 ∧ t = { s with mem := loadedMem s.mem rom, run := .ready } ∧ r = .ok)) := by
  rw [← s.loaded_eq]
  rcases transactLoad_cases rom s with ⟨-, e⟩ | ⟨hrun, -, e⟩ | ⟨hrun, hfits, e⟩
  · exact nomatch e.symm.trans h
  · cases e.symm.trans h
    exact ⟨hrun, .inl ⟨rfl, rfl⟩⟩
  · cases e.symm.trans h
    exact ⟨hrun, .inr ⟨hfits, rfl, rfl⟩⟩

/-- Font, a ROM that fits and the display region lie inside the address space. -/
theorem loadedMem_wf {m : Memory} {rom : List Byte} (h : m.wf = true) (hfits : 0x200 + rom.length ≤ 0xF00) :
    (loadedMem m rom).wf = true := by
  refine Memory.wf_writeBytes _ (Memory.wf_writeBytes rom (Memory.wf_writeBytes _ h (by decide)) ?_) ?_
  · exact le_trans hfits (by decide)
  · rw [List.length_replicate]
    decide

theorem Inv.with_mem_ready {s : State} (h : Inv s) (hrun : s.run = .empty) {m : Memory} (hm : m.wf = true) :
    Inv { s with mem := m, run := .ready } :=
  ⟨hm, h.stack_le, h.stack_addr, h.pc_le, fun _ => h.err_clear (by simp [hrun]), nofun⟩

/-- Settles O14, transaction by transaction. -/
theorem transactionsKeepInv : Obligations.TransactionsKeepInv := by
  intro tr s t r h htr
  cases tr with
  | reset =>
    cases htr
    exact Inv.reset.with_draws s.draws
  | load rom =>
    obtain ⟨hrun, ⟨rfl, -⟩ | ⟨hfits, rfl, -⟩⟩ := eq_of_load htr
    · exact h
    · exact h.with_mem_ready hrun (loadedMem_wf h.mem_wf hfits)
  | step rnd =>
    cases (transact_step rnd s).symm.trans htr
    exact h.afterStep rnd
  | setKey k p =>
    cases htr
    exact ⟨h.mem_wf, h.stack_le, h.stack_addr, h.pc_le, h.err_clear, h.err_set⟩
  | resetKeyboard =>
    cases htr
    exact ⟨h.mem_wf, h.stack_le, h.stack_addr, h.pc_le, h.err_clear, h.err_set⟩
  | framebuffer =>
    cases htr
    exact h

end Sys2Proof.Machine
end

section
/-! Nothing reads `ST` or `draws`: a transaction in two states that differ in these two alone answers the same, and leaves
two states that again differ in these two alone; `draws` it leaves as it was. -/

namespace Sys2Proof.Machine

/-- The state with other values of the two fields nothing reads. -/
def State.withUnread (s : State) (st : Byte) (draws : Nat) : State := { s with st := st, draws := draws }

theorem faultCodeOf_withUnread (i : Instr) (s : State) (b : Byte) (d : Nat) :
    faultCodeOf (s.withUnread b d) i = faultCodeOf s i := by
  cases i <;> rfl

theorem State.commit_withUnread (s : State) (fb : List Byte) (b : Byte) (d : Nat) :
    (s.withUnread b d).commit fb = (s.commit fb).withUnread b d := rfl

theorem State.drawn_withUnread (s : State) (x y n : Nibble) (b : Byte) (d : Nat) :
    (s.withUnread b d).drawn x y n = s.drawn x y n := rfl

theorem State.loadRange_withUnread (s : State) (x : Nibble) (b : Byte) (d : Nat) :
    (s.withUnread b d).loadRange x (s.withUnread b d).base = (s.loadRange x s.base).withUnread b d := rfl

theorem completed_withUnread (rnd : Byte) (i : Instr) (s : State) (b : Byte) (d : Nat) :
    ∃ c, completed rnd i (s.withUnread b d) = (completed rnd i s).withUnread c d ∧
      (b = s.st → c = (completed rnd i s).st) := by
  cases i
  case ldStVx x => exact ⟨s.reg x, rfl, fun _ => rfl⟩
  case drw x y n => exact ⟨b, by simp only [completed, s.drawn_withUnread, s.commit_withUnread]; rfl, by simp [completed]⟩
  case cls => exact ⟨b, by simp only [completed, s.commit_withUnread], by simp [completed]⟩
  case ldRegs x => exact ⟨b, by simp only [completed, s.loadRange_withUnread], by simp [completed]⟩
  all_goals exact ⟨b, rfl, fun h => h⟩

theorem executed_withUnread (rnd : Byte) (i : Instr) (s : State) (b : Byte) (d : Nat) :
    ∃ c, executed rnd i (s.withUnread b d) = (executed rnd i s).withUnread c d ∧
      (b = s.st → c = (executed rnd i s).st) := by
  rcases h : faultCodeOf s i with _ | code
  · rw [executed_of_completes h, executed_of_completes ((faultCodeOf_withUnread i s b d).trans h)]
    exact completed_withUnread rnd i s b d
  · rw [executed_of_faults h, executed_of_faults ((faultCodeOf_withUnread i s b d).trans h)]
    exact ⟨b, rfl, fun h => h⟩

theorem afterStep_withUnread (rnd : Byte) (s : State) (b : Byte) (d : Nat) :
    ∃ c, afterStep rnd (s.withUnread b d) = (afterStep rnd s).withUnread c d ∧
      (b = s.st → c = (afterStep rnd s).st) := by
  rcases afterStep_cases rnd s with ⟨hrun, e⟩ | ⟨hrun, hpc, e⟩ | ⟨hrun, hpc, hd, e⟩ | ⟨hrun, hpc, i, hd, e⟩
  · rw [e, afterStep_of_halted (s := s.withUnread b d) rnd hrun]
    exact ⟨b, rfl, fun h => h⟩
  · rw [e, afterStep_of_beyond (s := s.withUnread b d) rnd hrun hpc]
    exact ⟨b, rfl, fun h => h⟩
  · rw [e, afterStep_of_unknown (s := s.withUnread b d) rnd hrun hpc hd]
    exact ⟨tickDown b, rfl, fun h => congrArg tickDown h⟩
  · rw [e, afterStep_of_decode (s := s.withUnread b d) rnd hrun hpc hd]
    obtain ⟨c, hc, same⟩ := executed_withUnread rnd i (advancedAndTicked s) (tickDown b) d
    exact ⟨c, hc, fun h => same (congrArg tickDown h)⟩

theorem State.loaded_withUnread (s : State) (rom : List Byte) (b : Byte) (d : Nat) :
    (s.withUnread b d).loaded rom = (s.loaded rom).withUnread b d := by
  rw [State.loaded_eq, State.loaded_eq, State.withUnread, State.withUnread]

/-- One transaction in two states that differ in the two unread fields: refused alike, or answered alike. -/
theorem transact_withUnread (tr : Transaction) (s : State) (b : Byte) (d : Nat) :
    (∃ t r c, transact tr s = .next (t, r) ∧ t.draws = s.draws ∧
      transact tr (s.withUnread b d) = .next (t.withUnread c d, r) ∧ (b = s.st → c = t.st)) ∨
    (∃ f, transact tr s = .refused f ∧ transact tr (s.withUnread b d) = .refused f) := by
  cases tr with
  | reset => exact .inl ⟨s.afterReset, .nothing, 0, rfl, rfl, rfl, fun _ => rfl⟩
  | load rom =>
    rcases transactLoad_cases rom s with ⟨hrun, e⟩ | ⟨hrun, hlong, e⟩ | ⟨hrun, hfits, e⟩
    · exact .inr ⟨_, e, transact_load_of_not_empty (s := s.withUnread b d) rom hrun⟩
    · exact .inl ⟨_, _, b, e, rfl, transact_load_of_too_long (s := s.withUnread b d) hrun hlong, fun h => h⟩
    · refine .inl ⟨_, _, b, e, ?_, ?_, ?_⟩
      · rw [State.loaded_eq]
      · rw [transact_load_of_fits (s := s.withUnread b d) hrun hfits, s.loaded_withUnread]
      · rw [State.loaded_eq]
        exact fun h => h
  | step rnd =>
    obtain ⟨c, hc, same⟩ := afterStep_withUnread rnd s b d
    refine .inl ⟨_, _, c, transact_step rnd s, afterStep_draws rnd s, ?_, same⟩
    rw [transact_step, hc]
    rfl
  | setKey k p => exact .inl ⟨s.setKey k p, .nothing, b, rfl, rfl, rfl, fun h => h⟩
  | resetKeyboard => exact .inl ⟨s.resetKeyboard, .nothing, b, rfl, rfl, rfl, fun h => h⟩
  | framebuffer => exact .inl ⟨s, .bytes s.framebuffer, b, rfl, rfl, rfl, fun h => h⟩

/-- Settles O27: `transact_withUnread` with `draws` as it is. -/
theorem soundTimerIsNeverRead : Obligations.SoundTimerIsNeverRead := by
  intro tr s b
  rcases transact_withUnread tr s b s.draws with ⟨t, r, c, e, hdraws, e', -⟩ | ⟨f, e, e'⟩
  · refine .inl ⟨t, r, c, e, e'.trans ?_⟩
    rw [← hdraws]
    rfl
  · exact .inr ⟨f, e, e'⟩

theorem exec_with_draws {i : Instr} (h : ∀ x kk, i ≠ .rnd x kk) (rnd : Byte) (s : State) (d : Nat) :
    exec i { s with draws := d } = .next { executed rnd i s with draws := d } := by
  obtain ⟨c, hc, same⟩ := executed_withUnread rnd i s s.st d
  rw [exec_eq_executed h rnd, ← State.withUnread, hc, same rfl]
  rfl

/-- Settles O28: an instruction but `Cxkk` runs as `exec` says whatever the byte, `transact_withUnread` with `ST` as it is,
and `step_eq`. -/
theorem randomSourceReachesOnlyRnd : Obligations.RandomSourceReachesOnlyRnd := by
  refine ⟨fun i s rnd h => ?_, fun tr s => ?_, fun s => ?_⟩
  · exact ⟨executed rnd i s, exec_eq_executed h rnd s, execWith_eq rnd i s, executed_draws rnd i s,
      exec_with_draws h rnd s⟩
  · rcases transact_withUnread tr s s.st s.draws with ⟨t, r, c, e, hdraws, -, -⟩ | ⟨f, e, -⟩
    · refine .inl ⟨t, r, e, hdraws, fun d => ?_⟩
      rcases transact_withUnread tr s s.st d with ⟨t', r', c, e₁, -, e₂, same⟩ | ⟨f, e₁, -⟩
      · cases e.symm.trans e₁
        rw [same rfl] at e₂
        exact e₂
      · exact nomatch e.symm.trans e₁
    · refine .inr ⟨f, fun d => ?_⟩
      rcases transact_withUnread tr s s.st d with ⟨t, r, c, e₁, -, -, -⟩ | ⟨f', e₁, e₂⟩
      · exact nomatch e.symm.trans e₁
      · cases e.symm.trans e₁
        exact e₂
  · obtain ⟨d, e⟩ := step_eq s
    exact ⟨_, d, stepWith_eq _ s, e⟩

end Sys2Proof.Machine
end

section
/-! Faults and halting: what a step and a transaction do to `RUN` and `ERR`. -/

namespace Sys2Proof.Machine

/-- Settles O8. -/
theorem haltedCoreStaysHalted : Obligations.HaltedCoreStaysHalted := by
  intro s hrun
  have hstep (rnd) : transact (.step rnd) s = .next (s, .fault s.err) := by
    rw [transact_step, afterStep_of_halted rnd hrun, stepReply, if_pos hrun]
  have hload (rom) : transact (.load rom) s = .refused .loadNotEmpty :=
    transact_load_of_not_empty rom (by simp [hrun])
  refine ⟨hstep, hload, fun k p => ⟨_, transact_setKey k p s, ?_⟩, ⟨_, transact_resetKeyboard s, ?_⟩, ⟨_, rfl⟩,
    fun tr t r hreset htr => ?_, ⟨_, rfl, rfl⟩⟩
  · rw [State.keyAt_setKey, if_pos rfl]
  · exact s.keyAt_resetKeyboard
  · cases tr with
    | reset => exact absurd rfl hreset
    | load rom => exact nomatch (hload rom).symm.trans htr
    | step rnd =>
      cases (hstep rnd).symm.trans htr
      exact ⟨hrun, rfl⟩
    | setKey k p =>
      cases htr
      exact ⟨hrun, rfl⟩
    | resetKeyboard =>
      cases htr
      exact ⟨hrun, rfl⟩
    | framebuffer =>
      cases htr
      exact ⟨hrun, rfl⟩

/-- Settles O16: the first three cases of `stepBy_phases` and the two of `exec_cases`. -/
theorem faultsAreExactlyTheTabled : Obligations.FaultsAreExactlyTheTabled := by
  refine ⟨fun s hrun hpc => ?_, fun s hrun hpc hd => ?_, fun i s => ?_⟩
  · exact stepBy_of_beyond exec hrun hpc
  · exact stepBy_of_unknown exec hrun hpc hd
  · rcases exec_cases i s with ⟨code, hcode, e⟩ | ⟨hcode, e⟩
    · exact ⟨_, e, by rw [hcode]⟩
    · refine ⟨_, e, ?_⟩
      rw [hcode]
      exact ⟨completed_run _ i s, completed_err _ i s⟩

/-- Settles O17: only a fault of EXECUTE is left beside the two faults of `stepBy_phases`, since a completing instruction
keeps `RUN`. -/
theorem faultingStepHasOneOfTwoShapes : Obligations.FaultingStepHasOneOfTwoShapes := by
  intro s t hrun hstep hhalt
  rcases stepBy_phases exec s with ⟨h, -⟩ | ⟨-, hpc, e⟩ | ⟨-, hpc, -, e⟩ | ⟨-, hpc, i, hd, e⟩
  · exact absurd h hrun
  · cases e.symm.trans hstep
    exact .inl ⟨hpc, rfl⟩
  · cases e.symm.trans hstep
    exact .inr ⟨hpc, 4, by decide, rfl⟩
  · rcases exec_cases i (advancedAndTicked s) with ⟨code, hcode, e'⟩ | ⟨-, e'⟩
    · cases e'.symm.trans (e.symm.trans hstep)
      rw [← encodeOfDecode _ i hd]
      exact .inr ⟨hpc, code, two_le_of_faultCodeOf hcode, rfl⟩
    · cases e'.symm.trans (e.symm.trans hstep)
      exact absurd ((completed_run _ i _).symm.trans hhalt) hrun

theorem executed_run (rnd : Byte) (i : Instr) (s : State) :
    (executed rnd i s).run = s.run ∨ (executed rnd i s).run = .halted :=
  executed_induction (P := fun t => t.run = s.run ∨ t.run = .halted) (fun _ _ => .inr rfl)
    fun _ => .inl (completed_run rnd i s)

/-- A STEP keeps `RUN` or halts (rules R22, R223). -/
theorem afterStep_run (rnd : Byte) (s : State) : (afterStep rnd s).run = s.run ∨ (afterStep rnd s).run = .halted := by
  rcases afterStep_cases rnd s with ⟨-, e⟩ | ⟨-, -, e⟩ | ⟨-, -, -, e⟩ | ⟨-, -, i, -, e⟩ <;> rw [e]
  · exact .inl rfl
  · exact .inr rfl
  · exact .inr rfl
  · exact executed_run rnd i (advancedAndTicked s)

/-- Settles O19, transaction by transaction. -/
theorem runStateChangesAsTabled : Obligations.RunStateChangesAsTabled := by
  intro tr s t r htr
  cases tr with
  | reset =>
    cases htr
    rfl
  | load rom =>
    obtain ⟨hrun, ⟨rfl, hr⟩ | ⟨-, rfl, hr⟩⟩ := eq_of_load htr
    · exact ⟨hrun, .inr ⟨hr, hrun⟩⟩
    · exact ⟨hrun, .inl ⟨hr, rfl⟩⟩
  | step rnd =>
    cases (transact_step rnd s).symm.trans htr
    rcases afterStep_run rnd s with h | h
    · exact .inl h
    · by_cases hrun : s.run = .halted
      · exact .inl (h.trans hrun.symm)
      · exact .inr ⟨hrun, h, if_pos h⟩
  | setKey k p =>
    cases htr
    rfl
  | resetKeyboard =>
    cases htr
    rfl
  | framebuffer =>
    cases htr
    rfl

theorem pcAfter_advancedAndTicked (s : State) (a : Nat) (i : Instr) : pcAfter (advancedAndTicked s) a i = pcAfter s a i := by
  cases i <;> rfl

/-- Settles O26: `completed_pc_toNat` on the advanced state, and a fault leaves `PC` as ADVANCE did or did not move it. -/
theorem pcAfterAStepIsAsTabled : Obligations.PcAfterAStepIsAsTabled := by
  intro s t hrun hstep
  rcases stepBy_phases exec s with ⟨h, -⟩ | ⟨-, hpc, e⟩ | ⟨-, hpc, -, e⟩ | ⟨-, hpc, i, hd, e⟩
  · exact absurd h hrun
  · cases e.symm.trans hstep
    exact ⟨fun _ => rfl, fun h => absurd h (Nat.not_le.mpr hpc), fun h => absurd h (Nat.not_le.mpr hpc)⟩
  · cases e.symm.trans hstep
    exact ⟨fun h => absurd hpc (Nat.not_le.mpr h), fun _ _ => advancedAndTicked_pc_toNat hpc, fun _ h => absurd rfl h⟩
  · refine ⟨fun h => absurd hpc (Nat.not_le.mpr h), fun _ hhalt => ?_, fun _ hhalt => ⟨i, hd, ?_⟩⟩
    all_goals rcases exec_cases i (advancedAndTicked s) with ⟨code, -, e'⟩ | ⟨-, e'⟩
    all_goals cases e'.symm.trans (e.symm.trans hstep)
    · exact advancedAndTicked_pc_toNat hpc
    · exact absurd ((completed_run _ i _).symm.trans hhalt) hrun
    · exact absurd rfl hhalt
    · refine ⟨?_, ?_⟩
      · rw [← pcAfter_advancedAndTicked]
        exact completed_pc_toNat _ i (advancedAndTicked_pc_toNat hpc) hpc
      · rintro nnn rfl
        rfl

end Sys2Proof.Machine
end

section
/-! What each piece of state is written by, over all instructions: a fault writes none of them, and a completing instruction
only what its arm of `completed` writes. -/

namespace Sys2Proof.Machine

theorem afterStep_key (rnd : Byte) (s : State) : (afterStep rnd s).key = s.key := by
  rcases afterStep_cases rnd s with ⟨-, e⟩ | ⟨-, -, e⟩ | ⟨-, -, -, e⟩ | ⟨-, -, i, -, e⟩
  · rw [e]
  · rw [e, haltedWith]
  · rw [e, haltedWith, advancedAndTicked]
  · rw [e, executed_key, advancedAndTicked]

/-- Settles O20. -/
theorem keysAreChangedByTheHostOnly : Obligations.KeysAreChangedByTheHostOnly := by
  refine ⟨fun i s t hexec => ?_, fun s t hstep => ?_, fun rnd s t r htr => ?_, fun rom s t r htr => ?_⟩
  · obtain ⟨rnd, d, rfl⟩ := eq_of_exec hexec
    exact executed_key rnd i s
  · obtain ⟨rnd, d, rfl⟩ := eq_of_step hstep
    exact afterStep_key rnd s
  · cases (transact_step rnd s).symm.trans htr
    exact afterStep_key rnd s
  · obtain ⟨-, ⟨rfl, -⟩ | ⟨-, rfl, -⟩⟩ := eq_of_load htr <;> rfl

/-- Settles O21. -/
theorem memoryIsWrittenByFourForms : Obligations.MemoryIsWrittenByFourForms := by
  intro i s t hst hb hdrw hcls hexec
  obtain ⟨rnd, d, rfl⟩ := eq_of_exec hexec
  exact executed_induction (P := fun t => t.mem = s.mem) (fun _ _ => rfl) fun _ => completed_mem rnd s hst hb hdrw hcls

/-- Settles O22. -/
theorem stackIsTouchedByCallAndReturnOnly : Obligations.StackIsTouchedByCallAndReturnOnly := by
  refine ⟨fun i s t hcall hret hexec => ?_, fun tr s t r hstep hreset htr => ?_⟩
  · obtain ⟨rnd, d, rfl⟩ := eq_of_exec hexec
    exact executed_induction (P := fun t => t.stack = s.stack) (fun _ _ => rfl) fun _ => completed_stack rnd s hcall hret
  · cases tr with
    | reset => exact absurd rfl hreset
    | load rom =>
      obtain ⟨-, ⟨rfl, -⟩ | ⟨-, rfl, -⟩⟩ := eq_of_load htr <;> rfl
    | step rnd => exact absurd rfl (hstep rnd)
    | setKey k p =>
      cases htr
      rfl
    | resetKeyboard =>
      cases htr
      rfl
    | framebuffer =>
      cases htr
      rfl

/-- Settles O23. -/
theorem indexIsWrittenByThreeForms : Obligations.IndexIsWrittenByThreeForms := by
  intro i s t hldI hldF hadd hexec
  obtain ⟨rnd, d, rfl⟩ := eq_of_exec hexec
  exact executed_induction (P := fun t => t.i = s.i) (fun _ _ => rfl) fun _ => completed_i rnd s hldI hldF hadd

/-- Settles O24. -/
theorem registersAreWrittenAsTabled : Obligations.RegistersAreWrittenAsTabled := by
  intro i s t r hexec hr
  obtain ⟨rnd, d, rfl⟩ := eq_of_exec hexec
  exact executed_induction (P := fun t => t.reg r = s.reg r) (fun _ _ => rfl) fun _ => completed_reg rnd s hr

end Sys2Proof.Machine
end

section
/-! Memory: the canonical form is unique, and what a store inside the address space leaves at the addresses it writes. -/

namespace Sys2Proof.Machine

/-- The first listed byte of a canonical memory is read back, and below its address nothing is listed. -/
theorem Memory.read_cons_self (a : Nat) (b : Byte) (m : Memory) : Memory.read ((a, b) :: m) a = b := if_pos rfl

theorem Memory.read_cons_of_lt {a k : Nat} {b : Byte} {m : Memory} (h : Memory.wf ((a, b) :: m) = true) (hk : k < a) :
    Memory.read ((a, b) :: m) k = 0 := by
  obtain ⟨-, -, hrise, -⟩ := Memory.wf_cons.mp h
  refine Memory.read_of_not_listed fun c hc => ?_
  rcases List.mem_cons.mp hc with rfl | hc
  · exact Nat.ne_of_gt hk
  · exact Nat.ne_of_gt (lt_trans hk (hrise c hc))

/-- The tail of a canonical memory reads as the memory does, but at the first listed address. -/
theorem Memory.read_tail {a : Nat} {b : Byte} {m : Memory} (h : Memory.wf ((a, b) :: m) = true) (k : Nat) :
    m.read k = if k = a then 0 else Memory.read ((a, b) :: m) k := by
  obtain ⟨-, -, hrise, -⟩ := Memory.wf_cons.mp h
  split
  · next e =>
    subst e
    exact Memory.read_of_not_listed fun c hc => Nat.ne_of_gt (hrise c hc)
  · next e => exact (if_neg (Ne.symm e)).symm

/-- Settles O15, by induction on both lists: their first addresses cannot differ, since the smaller one is read in its own
memory alone. -/
theorem canonicalMemoriesThatReadAlikeAreEqual : Obligations.CanonicalMemoriesThatReadAlikeAreEqual := by
  intro m n hm hn hread
  induction m generalizing n with
  | nil =>
    rcases n with _ | ⟨⟨c, d⟩, n⟩
    · rfl
    · obtain ⟨-, hd, -, -⟩ := Memory.wf_cons.mp hn
      exact absurd ((Memory.read_cons_self c d n).symm.trans (hread c).symm) hd
  | cons p m ih =>
    obtain ⟨a, b⟩ := p
    obtain ⟨-, hb, -, hm'⟩ := Memory.wf_cons.mp hm
    rcases n with _ | ⟨⟨c, d⟩, n⟩
    · exact absurd ((Memory.read_cons_self a b m).symm.trans (hread a)) hb
    · obtain ⟨-, hd, -, hn'⟩ := Memory.wf_cons.mp hn
      obtain h | rfl | h := lt_trichotomy a c
      · exact absurd ((Memory.read_cons_self a b m).symm.trans ((hread a).trans (Memory.read_cons_of_lt hn h))) hb
      · have same_byte : b = d := by
          rw [← Memory.read_cons_self a b m, hread a, Memory.read_cons_self]
        have same_tail : m = n := ih n hm' hn' fun k => by
          rw [Memory.read_tail hm, Memory.read_tail hn, hread k]
        rw [same_byte, same_tail]
      · exact absurd ((Memory.read_cons_self c d n).symm.trans ((hread c).symm.trans (Memory.read_cons_of_lt hm h))) hd

/-- The byte a run of writes leaves at its own `k`-th address. -/
theorem Memory.read_writeBytes_add (m : Memory) (a : Nat) {bs : List Byte} {k : Nat} (hk : k < bs.length) :
    (m.writeBytes a bs).read (a + k) = bs.getD k 0 := by
  rw [Memory.read_writeBytes, if_pos (by omega), Nat.add_sub_cancel_left]

/-! ### EXECUTE of an instruction that takes no random byte -/

theorem exec_of_completes {i : Instr} {s : State} (h : faultCodeOf s i = none)
    (hi : ∀ x kk, i ≠ .rnd x kk := by nofun) : exec i s = .next (completed 0 i s) := by
  rw [exec_eq_executed hi 0, executed_of_completes h]

theorem exec_of_faults {i : Instr} {s : State} {code : BitVec 3} (h : faultCodeOf s i = some code) :
    exec i s = .next (haltedWith s code (encode i)) := by
  rw [exec_eq_executed (by rintro x kk rfl; cases h) 0, executed_of_faults h]

/-! ### The block store and load (rules R133, R134) -/

/-- A store changes memory only. -/
theorem State.store_frame (s : State) (a : Nat) (bs : List Byte) : s.store a bs = { s with mem := (s.store a bs).mem } :=
  rfl

theorem exec_stRegs {x : Nibble} {s : State} (h : s.i.toNat + x.toNat ≤ 0xFFF) :
    exec (.stRegs x) s = .next (s.store s.base (s.regRange x)) := exec_of_completes (if_neg (Nat.not_lt.mpr h))

theorem exec_ldRegs {x : Nibble} {s : State} (h : s.i.toNat + x.toNat ≤ 0xFFF) :
    exec (.ldRegs x) s = .next (s.loadRange x s.base) := exec_of_completes (if_neg (Nat.not_lt.mpr h))

/-- `Fx55` leaves `V[r]` at `I + r` (rule R133). -/
theorem State.read_store_regRange (s : State) {x r : Nibble} (hr : r.toNat ≤ x.toNat) :
    (s.store s.base (s.regRange x)).mem.read (s.i.toNat + r.toNat) = s.reg r := by
  rw [← s.getD_regRange x r hr]
  exact s.mem.read_writeBytes_add s.base (by rw [s.length_regRange]; omega)

/-- Settles O44. -/
theorem blockStoreWritesTheRange : Obligations.BlockStoreWritesTheRange := by
  intro x s h
  refine ⟨_, exec_stRegs h, s.store_frame _ _, fun r hr => s.read_store_regRange hr, fun a ha => ?_⟩
  refine Memory.read_writeBytes_of_outside _ _ ?_
  rw [s.length_regRange, State.base]
  omega

/-- Settles O45. -/
theorem blockLoadReadsTheRange : Obligations.BlockLoadReadsTheRange := by
  intro x s h
  refine ⟨_, exec_ldRegs h, rfl, fun r hr => ?_, fun r hr => ?_⟩
  · rw [State.reg_loadRange, if_pos hr, State.base]
  · rw [State.reg_loadRange, if_neg (Nat.not_le.mpr hr)]

/-- Settles O46: the load reads the bytes the store left, whatever the registers hold. -/
theorem blockStoreThenLoadRoundTrip : Obligations.BlockStoreThenLoadRoundTrip := by
  intro x s w h
  refine ⟨_, _, exec_stRegs h, exec_ldRegs h, fun r hr => ?_⟩
  rw [State.reg_loadRange, if_pos hr]
  exact s.read_store_regRange hr

/-! ### The decimal digits (rule R135) -/

theorem exec_ldB {x : Nibble} {s : State} (h : s.i.toNat + 2 ≤ 0xFFF) :
    exec (.ldB x) s = .next (s.store s.base (decimalDigits (s.reg x))) := exec_of_completes (if_neg (Nat.not_lt.mpr h))

/-- `Fx33` leaves digit `k` of `Vx`, hundreds first, at `I + k`. -/
theorem State.read_store_decimalDigits (s : State) (b : Byte) {k : Nat} (hk : k < 3) :
    ((s.store s.base (decimalDigits b)).mem.read (s.i.toNat + k)).toNat = b.toNat / 10 ^ (2 - k) % 10 := by
  have hb := b.isLt
  have hread : (s.store s.base (decimalDigits b)).mem.read (s.i.toNat + k) = (decimalDigits b).getD k 0 :=
    s.mem.read_writeBytes_add s.base (by rw [length_decimalDigits]; exact hk)
  rw [hread]
  interval_cases k <;> simp [decimalDigits, trunc8_toNat] <;> omega

/-- Settles O47. -/
theorem decimalDigitsAreStored : Obligations.DecimalDigitsAreStored := by
  intro x s h
  have hb := (s.reg x).isLt
  refine ⟨_, exec_ldB (by omega), s.store_frame _ _, ?_, ?_, ?_, fun a ha => ?_⟩
  · exact (s.read_store_decimalDigits _ (k := 0) (by decide)).trans (by omega)
  · exact s.read_store_decimalDigits _ (k := 1) (by decide)
  · exact (s.read_store_decimalDigits _ (k := 2) (by decide)).trans (by omega)
  · refine Memory.read_writeBytes_of_outside _ _ ?_
    rw [length_decimalDigits, State.base]
    omega

end Sys2Proof.Machine
end

section
/-! RESET and LOAD (rules R30, R31, R202, R252, R253): the reset values, and every byte of the memory a LOAD leaves. -/

namespace Sys2Proof.Machine

/-- RESET leaves the state the host starts from, but for `draws` (log 4). -/
theorem AtReset.afterReset (s : State) : AtReset s.afterReset :=
  ⟨State.reg_reset, rfl, rfl, rfl, rfl, rfl, State.keyAt_reset, fun _ _ => rfl, rfl, rfl⟩

/-- Settles O11. -/
theorem resetSetsEveryPiece : Obligations.ResetSetsEveryPiece :=
  ⟨fun s => ⟨s.afterReset, rfl, AtReset.afterReset s⟩, AtReset.afterReset State.reset⟩

theorem getD_replicate_zero (n k : Nat) : (List.replicate n (0x00 : Byte)).getD k 0 = 0 := by
  rw [List.getD_eq_getElem?_getD, List.getElem?_replicate]
  split <;> rfl

/-- Every byte after a LOAD (rule R252), the last write first. -/
theorem read_loadedMem (m : Memory) (rom : List Byte) (a : Nat) :
    (loadedMem m rom).read a =
      if 0xF00 ≤ a ∧ a < 0x1000 then 0x00
      else if 0x200 ≤ a ∧ a < 0x200 + rom.length then rom.getD (a - 0x200) 0
      else if a < 80 then glyphRow (a / 5) (a % 5)
      else m.read a := by
  have hfont : Config.font.length = 80 := rfl
  have hfb : Config.fbBytes = 256 := rfl
  rw [loadedMem, Memory.read_writeBytes, Memory.read_writeBytes, Memory.read_writeBytes, List.length_replicate,
    getD_replicate_zero, hfont, hfb]
  refine if_congr ?_ rfl (if_congr ?_ rfl ?_)
  · exact Iff.rfl
  · exact Iff.rfl
  · by_cases h : a < 80
    · rw [if_pos h, if_pos ⟨Nat.zero_le a, by simpa [Config.fontBase] using h⟩]
      exact getD_font a h
    · rw [if_neg h, if_neg (by simpa [Config.fontBase] using h)]

/-- Settles O57: the three cases of a LOAD, with `read_loadedMem` for the one that succeeds. -/
theorem loadPlacesTheRomOrIsTurnedAway : Obligations.LoadPlacesTheRomOrIsTurnedAway := by
  refine ⟨fun rom s hrun hfits => ⟨_, transact_load_of_fits hrun hfits, ?_⟩,
    fun rom s hrun hlong => transact_load_of_too_long hrun hlong, fun rom s hrun => transact_load_of_not_empty rom hrun⟩
  have hread := read_loadedMem s.mem rom
  rw [s.loaded_eq]
  generalize loadedMem s.mem rom = m at hread ⊢
  refine ⟨rfl, fun d hd r hr => ?_, fun k hk => ?_, fun k hk => ?_, fun a ha => ?_⟩ <;>
    refine (hread _).trans ?_
  · rw [if_neg (by omega), if_neg (by omega), if_pos (by omega), show (5 * d + r) / 5 = d by omega,
      show (5 * d + r) % 5 = r by omega]
  · rw [if_neg (by omega), if_pos (by omega), Nat.add_sub_cancel_left]
  · rw [if_pos (by omega)]
  · rw [if_neg (by omega), if_neg (by omega), if_neg (by omega)]

/-- Settles O58: after RESET every byte a LOAD does not write is 0. -/
theorem stateAfterResetAndLoad : Obligations.StateAfterResetAndLoad := by
  intro rom s hlen
  have hfits : 0x200 + rom.length ≤ 0xF00 := by omega
  refine ⟨s.afterReset, _, rfl, transact_load_of_fits rfl hfits, ?_⟩
  have hread := read_loadedMem s.afterReset.mem rom
  rw [State.loaded_eq]
  generalize loadedMem s.afterReset.mem rom = m at hread ⊢
  refine ⟨rfl, AtReset.afterReset s, fun a ha => (hread a).trans ?_⟩
  have hzero : s.afterReset.mem.read a = 0x00 := rfl
  rw [hzero]
  by_cases hscreen : 0xF00 ≤ a
  · rw [if_pos ⟨hscreen, ha⟩, if_neg (by omega), if_neg (by omega)]
  · rw [if_neg (by omega)]
    by_cases hrom : 0x200 ≤ a ∧ a < 0x200 + rom.length
    · rw [if_pos hrom, if_neg (by omega), if_pos hrom]
    · rw [if_neg hrom, if_neg hrom]

end Sys2Proof.Machine
end

section
/-! The display: the bytes of the screen and its pixels, the draw and the clear, and the byte-level blit of rule R178, which
turns over the same pixels as the draw. -/

namespace Sys2Proof.Machine

/-- Settles O60. -/
theorem framebufferReturnsTheDisplayRegion : Obligations.FramebufferReturnsTheDisplayRegion := fun s =>
  ⟨s.framebuffer, rfl, length_framebuffer s, fun k hk => s.mem.getD_readBytes Config.displayBase Config.fbBytes k hk⟩

/-- A write of the display region changes memory only. -/
theorem State.commit_frame (s : State) (fb : List Byte) : s.commit fb = { s with mem := (s.commit fb).mem } := rfl

theorem State.read_commit (s : State) {fb : List Byte} (hfb : fb.length = 256) {k : Nat} (hk : k < 256) :
    (s.commit fb).mem.read (0xF00 + k) = fb.getD k 0 := by
  rw [State.commit_mem]
  exact s.mem.read_writeBytes_add 0xF00 (by rwa [hfb])

theorem State.read_commit_of_outside (s : State) {fb : List Byte} (hfb : fb.length = 256) {a : Nat}
    (ha : a < 0xF00 ∨ 0xFFF < a) : (s.commit fb).mem.read a = s.mem.read a := by
  rw [State.commit_mem]
  refine Memory.read_writeBytes_of_outside _ _ ?_
  rw [hfb]
  exact ha

/-- The clear screen of `00E0` (rule R181). -/
theorem exec_cls (s : State) : exec .cls s = .next (s.commit (List.replicate 256 0x00)) := exec_of_completes rfl

/-- Settles O56. -/
theorem clearScreenZeroesTheDisplayRegion : Obligations.ClearScreenZeroesTheDisplayRegion := by
  intro s
  have hlen : (List.replicate 256 (0x00 : Byte)).length = 256 := List.length_replicate
  refine ⟨_, exec_cls s, s.commit_frame _, fun a hlo hhi => ?_, fun a ha => s.read_commit_of_outside hlen ha⟩
  obtain ⟨k, rfl⟩ := Nat.exists_eq_add_of_le hlo
  rw [s.read_commit hlen (by omega), getD_replicate_zero]

/-! ### Bytes and pixels (rule R175) -/

/-- Every bit of the display region is a pixel of the screen. -/
theorem getLsbD_display (s : State) (k : Nat) {b : Nat} (hb : b < 8) :
    (s.mem.read (0xF00 + k)).getLsbD b = screenPixel s (k / 8) (k % 8 * 8 + (7 - b)) := by
  have hbit : 7 - (k % 8 * 8 + (7 - b)) % 8 = b := by omega
  have haddr : 0xF00 + k / 8 * 8 + (k % 8 * 8 + (7 - b)) / 8 = 0xF00 + k := by omega
  rw [screenPixel, hbit, haddr]

/-- The display regions of two states that show the same pixels are the same. -/
theorem read_display_eq_of_pixels {s t : State} (h : ∀ r < 32, ∀ c < 64, screenPixel t r c = screenPixel s r c) {k : Nat}
    (hk : k < 256) : t.mem.read (0xF00 + k) = s.mem.read (0xF00 + k) := by
  refine BitVec.eq_of_getLsbD_eq fun b hb => ?_
  rw [getLsbD_display t k hb, getLsbD_display s k hb]
  exact h _ (by omega) _ (by omega)

/-- Two working copies that show the same pixels are the same, byte by byte. -/
theorem getD_eq_of_pixels {fb gb : List Byte} (h : ∀ r < 32, ∀ c < 64, pixelOf fb r c = pixelOf gb r c) {k : Nat}
    (hk : k < 256) : fb.getD k 0 = gb.getD k 0 := by
  have hpixel (l : List Byte) {b : Nat} (hb : b < 8) : (l.getD k 0).getLsbD b = pixelOf l (k / 8) (k % 8 * 8 + (7 - b)) := by
    have hbit : fbBit (k % 8 * 8 + (7 - b)) = b := by rw [fbBit]; omega
    have hindex : fbIndex (k / 8) (k % 8 * 8 + (7 - b)) = k := by rw [fbIndex, rowBytes_eq]; omega
    rw [pixelOf, hbit, hindex]
  refine BitVec.eq_of_getLsbD_eq fun b hb => ?_
  rw [hpixel fb hb, hpixel gb hb]
  exact h _ (by omega) _ (by omega)

/-! ### The draw (rule R177) -/

/-- The pixels the rows of the sprite cover are those the rule names. -/
theorem rowsCover_sprite (s : State) (x y n : Nibble) {r c : Nat} (hr : r < 32) (hc : c < 64) :
    rowsCover (s.sprite n) (s.reg x).toNat (s.reg y).toNat r c = spriteCovers s x y n r c := by
  have hlen : (s.sprite n).length = n.toNat := s.mem.length_readBytes s.base n.toNat
  simp only [rowsCover, spriteCovers, spriteBit, hlen, hr, hc, decide_true, Bool.true_and]
  by_cases hy : (s.reg y).toNat ≤ r
  · by_cases hn : r < (s.reg y).toNat + n.toNat
    · have hrow : (s.sprite n).getD (r - (s.reg y).toNat) 0 = s.mem.read (s.i.toNat + (r - (s.reg y).toNat)) :=
        s.mem.getD_readBytes s.base n.toNat _ (by omega)
      rw [hrow]
    · simp [hn]
  · simp [hy]

/-- What a draw leaves in every pixel of its working copy (rule R177). -/
theorem State.pixelOf_drawn (s : State) (x y n : Nibble) {r c : Nat} (hr : r < 32) (hc : c < 64) :
    pixelOf (s.drawn x y n).fb r c = (screenPixel s r c != spriteCovers s x y n r c) := by
  rw [State.drawn, Canvas.pixelOf_plotRows _ _ _ _ (length_framebuffer s) hr hc, s.pixelOf_framebuffer hr hc,
    rowsCover_sprite s x y n hr hc]

/-- A draw collides exactly when a pixel it covers was set (rule R179). -/
theorem State.hit_drawn (s : State) (x y n : Nibble) : (s.drawn x y n).hit = true ↔
    ∃ r < 32, ∃ c < 64, spriteCovers s x y n r c = true ∧ screenPixel s r c = true := by
  rw [State.drawn, Canvas.hit_plotRows _ _ _ _ (length_framebuffer s)]
  simp only [Bool.false_eq_true, false_or]
  refine exists_congr fun r => and_congr_right fun hr => exists_congr fun c => and_congr_right fun hc => ?_
  rw [rowsCover_sprite s x y n hr hc, s.pixelOf_framebuffer hr hc]

/-- The state a completed draw leaves: the working copy in the display region, the collision in `VF`. -/
def State.afterDraw (s : State) (x y n : Nibble) : State :=
  (s.commit (s.drawn x y n).fb).setReg vf (flagByte (s.drawn x y n).hit)

theorem exec_drw {x y n : Nibble} {s : State} (h : n.toNat = 0 ∨ s.i.toNat + n.toNat - 1 ≤ 0xFFF) :
    exec (.drw x y n) s = .next (s.afterDraw x y n) :=
  exec_of_completes (if_neg (by omega))

section
variable (s : State) (x y n : Nibble)

theorem State.afterDraw_frame :
    s.afterDraw x y n = { s with v := (s.afterDraw x y n).v, mem := (s.afterDraw x y n).mem } := by
  rw [State.afterDraw, State.setReg_frame, State.commit_frame]

theorem State.afterDraw_reg_vf : (s.afterDraw x y n).reg 0xF = flagByte (s.drawn x y n).hit :=
  State.reg_setReg_self _ vf _

theorem State.afterDraw_reg_of_ne {r : Nibble} (hr : r ≠ 0xF) : (s.afterDraw x y n).reg r = s.reg r := by
  rw [State.afterDraw, State.reg_setReg_of_ne _ (show r ≠ vf from hr), State.reg_commit]

theorem State.read_afterDraw_display {k : Nat} (hk : k < 256) :
    (s.afterDraw x y n).mem.read (0xF00 + k) = (s.drawn x y n).fb.getD k 0 := by
  rw [State.afterDraw, State.setReg_mem, s.read_commit (s.length_drawn x y n) hk]

theorem State.read_afterDraw_of_outside {a : Nat} (ha : a < 0xF00 ∨ 0xFFF < a) :
    (s.afterDraw x y n).mem.read a = s.mem.read a := by
  rw [State.afterDraw, State.setReg_mem, s.read_commit_of_outside (s.length_drawn x y n) ha]

theorem State.screenPixel_afterDraw {r c : Nat} (hr : r < 32) (hc : c < 64) :
    screenPixel (s.afterDraw x y n) r c = (screenPixel s r c != spriteCovers s x y n r c) := by
  rw [← s.pixelOf_drawn x y n hr hc, ← s.screenPixel_commit _ (s.length_drawn x y n) hr hc, screenPixel, screenPixel,
    State.afterDraw, State.setReg_mem]

theorem State.afterDraw_collides : (s.afterDraw x y n).reg 0xF = 1 ↔
    ∃ r < 32, ∃ c < 64, spriteCovers s x y n r c = true ∧ screenPixel s r c = true := by
  rw [s.afterDraw_reg_vf, flagByte_eq_one, s.hit_drawn]

end

/-- Settles O53. -/
theorem drawTurnsOverTheCoveredPixels : Obligations.DrawTurnsOverTheCoveredPixels := fun x y n s h =>
  ⟨s.afterDraw x y n, exec_drw h, s.afterDraw_frame x y n,
    fun _ hr _ hc => s.screenPixel_afterDraw x y n hr hc, s.afterDraw_collides x y n,
    s.afterDraw_reg_vf x y n ▸ flagByte_cases _,
    fun _ hr => s.afterDraw_reg_of_ne x y n hr, fun _ ha => s.read_afterDraw_of_outside x y n ha⟩

/-! ### Drawing twice (rule R179) -/

/-- A sprite below the display region covers the same pixels after a draw, where neither coordinate is `VF`. -/
theorem State.spriteCovers_afterDraw {s : State} {x y n : Nibble} (hx : x ≠ 0xF) (hy : y ≠ 0xF)
    (hsprite : s.i.toNat + n.toNat ≤ 0xF00) (r c : Nat) :
    spriteCovers (s.afterDraw x y n) x y n r c = spriteCovers s x y n r c := by
  have hi : (s.afterDraw x y n).i = s.i := by rw [s.afterDraw_frame]
  simp only [spriteCovers, s.afterDraw_reg_of_ne x y n hx, s.afterDraw_reg_of_ne x y n hy, hi]
  by_cases hrow : (s.reg y).toNat ≤ r ∧ r < (s.reg y).toNat + n.toNat
  · rw [s.read_afterDraw_of_outside x y n (.inl (by omega))]
  · rcases not_and_or.mp hrow with h | h <;> simp [h]

/-- Settles O55: what the first draw turned over, the second turns back, and it finds set what the first found dark. -/
theorem drawingTwiceRestoresTheScreen : Obligations.DrawingTwiceRestoresTheScreen := by
  intro x y n s hx hy hsprite
  have covers := State.spriteCovers_afterDraw hx hy hsprite
  have hi : (s.afterDraw x y n).i = s.i := by rw [s.afterDraw_frame]
  refine ⟨_, (s.afterDraw x y n).afterDraw x y n, exec_drw (by omega), exec_drw (by rw [hi]; omega), fun a => ?_, ?_, ?_⟩
  · by_cases ha : a < 0xF00 ∨ 0xFFF < a
    · rw [State.read_afterDraw_of_outside _ x y n ha, State.read_afterDraw_of_outside _ x y n ha]
    · obtain ⟨k, rfl⟩ : ∃ k, a = 0xF00 + k := ⟨a - 0xF00, by omega⟩
      refine read_display_eq_of_pixels (fun r hr c hc => ?_) (by omega)
      rw [State.screenPixel_afterDraw _ x y n hr hc, covers, s.screenPixel_afterDraw x y n hr hc, Bool.bne_assoc,
        bne_self_eq_false, Bool.bne_false]
  · rw [State.afterDraw_reg_vf]
    exact flagByte_cases _
  · rw [State.afterDraw_collides]
    refine exists_congr fun r => and_congr_right fun hr => exists_congr fun c => and_congr_right fun hc => ?_
    rw [covers, s.screenPixel_afterDraw x y n hr hc]
    refine and_congr_right fun hcover => ?_
    rw [hcover, Bool.bne_true, Bool.not_eq_true']

/-! ### The byte-level blit (rule R178) -/

/-- XOR of a byte into a working copy turns over the pixels of its set bits. -/
theorem pixelOf_set_xor (fb : List Byte) (k : Nat) (v : Byte) {r c : Nat} (hrc : fbIndex r c < fb.length) :
    pixelOf (fb.set k (fb.getD k 0 ^^^ v)) r c =
      (pixelOf fb r c != (decide (k = fbIndex r c) && v.getLsbD (fbBit c))) := by
  by_cases hk : k = fbIndex r c
  · subst hk
    simp [pixelOf, List.getD_eq_getElem?_getD, hrc]
  · simp [pixelOf, List.getD_eq_getElem?_getD, hk]

theorem length_blitRow (fb : List Byte) (x0 r : Nat) (b : Byte) : (blitRow fb x0 r b).length = fb.length := by
  simp only [blitRow]
  split_ifs <;> simp

/-- The sprite row `b`, drawn from column `x0` of screen row `y0`, puts a set pixel at row `r`, column `c`. -/
def byteCovers (b : Byte) (x0 y0 r c : Nat) : Bool :=
  decide (y0 = r) && decide (x0 ≤ c) && decide (c < x0 + 8) && spriteBit b (c - x0)

section
variable {b : Byte} {x0 y0 r c : Nat}

theorem byteCovers_eq_true_iff :
    byteCovers b x0 y0 r c = true ↔ y0 = r ∧ (x0 ≤ c ∧ c < x0 + 8) ∧ b.getLsbD (7 - (c - x0)) = true := by
  simp only [byteCovers, spriteBit, Bool.and_eq_true, decide_eq_true_eq, and_assoc]

/-- In the framebuffer byte the sprite byte begins in, its first half is what it covers. -/
theorem byteCovers_firstHalf (h : y0 * 8 + x0 / 8 = fbIndex r c) (hx : x0 < 64) (hc : c < 64) :
    byteCovers b x0 y0 r c = (b >>> (x0 % 8)).getLsbD (fbBit c) := by
  rw [fbIndex, rowBytes_eq] at h
  rw [Bool.eq_iff_iff, byteCovers_eq_true_iff, BitVec.getLsbD_ushiftRight, fbBit]
  by_cases hxc : x0 ≤ c
  · rw [show x0 % 8 + (7 - c % 8) = 7 - (c - x0) by omega]
    exact ⟨fun ⟨_, _, hbit⟩ => hbit, fun hbit => ⟨by omega, by omega, hbit⟩⟩
  · have hpast : 8 ≤ x0 % 8 + (7 - c % 8) := by
      have : x0 / 8 = c / 8 := by omega
      omega
    rw [BitVec.getLsbD_of_ge b _ hpast]
    exact ⟨fun ⟨_, hcol, _⟩ => absurd hcol.1 hxc, nofun⟩

/-- In the next framebuffer byte of the row, its second half. -/
theorem byteCovers_secondHalf (h : y0 * 8 + x0 / 8 + 1 = fbIndex r c) (hrow : x0 / 8 + 1 < 8) (hc : c < 64) :
    byteCovers b x0 y0 r c = (b <<< (8 - x0 % 8)).getLsbD (fbBit c) := by
  rw [fbIndex, rowBytes_eq] at h
  rw [Bool.eq_iff_iff, byteCovers_eq_true_iff, BitVec.getLsbD_shiftLeft, fbBit]
  by_cases hxc : c < x0 + 8
  · rw [show 7 - c % 8 - (8 - x0 % 8) = 7 - (c - x0) by omega]
    have hlt : ¬ 7 - c % 8 < 8 - x0 % 8 := by omega
    have hbound : 7 - c % 8 < 8 := by omega
    simp only [hlt, hbound, decide_true, decide_false, Bool.not_false, Bool.true_and]
    exact ⟨fun ⟨_, _, hbit⟩ => hbit, fun hbit => ⟨by omega, by omega, hbit⟩⟩
  · have hlt : 7 - c % 8 < 8 - x0 % 8 := by omega
    simp only [hlt, decide_true, Bool.not_true, Bool.and_false, Bool.false_and]
    exact ⟨fun ⟨_, hcol, _⟩ => absurd hcol.2 hxc, nofun⟩

/-- In no other framebuffer byte does it cover a pixel of the screen. -/
theorem byteCovers_eq_false (hr : r < 32) (hc : c < 64)
    (hfirst : ¬ ((y0 < 32 ∧ x0 < 64) ∧ y0 * 8 + x0 / 8 = fbIndex r c))
    (hsecond : ¬ ((x0 % 8 ≠ 0 ∧ x0 / 8 + 1 < 8) ∧ y0 * 8 + x0 / 8 + 1 = fbIndex r c)) :
    byteCovers b x0 y0 r c = false := by
  rw [fbIndex, rowBytes_eq] at hfirst hsecond
  rw [Bool.eq_false_iff, ne_eq, byteCovers_eq_true_iff]
  rintro ⟨rfl, hcol, -⟩
  omega

/-- One row of the blit turns over the pixels the sprite byte covers. -/
theorem pixelOf_blitRow {fb : List Byte} (hl : fb.length = 256) (hr : r < 32) (hc : c < 64) :
    pixelOf (blitRow fb x0 y0 b) r c = (pixelOf fb r c != byteCovers b x0 y0 r c) := by
  have hindex : fbIndex r c < 256 := by rw [fbIndex, rowBytes_eq]; omega
  rw [blitRow]
  split_ifs with hon htwo
  · rw [pixelOf_set_xor _ _ _ (by rw [List.length_set, hl]; exact hindex), pixelOf_set_xor _ _ _ (by rwa [hl]), Bool.bne_assoc]
    congr 1
    by_cases hfirst : y0 * 8 + x0 / 8 = fbIndex r c
    · rw [byteCovers_firstHalf hfirst hon.2 hc]
      simp [hfirst]
    · by_cases hsecond : y0 * 8 + x0 / 8 + 1 = fbIndex r c
      · rw [byteCovers_secondHalf hsecond htwo.2 hc]
        simp [hfirst, hsecond]
      · rw [byteCovers_eq_false hr hc (fun h => hfirst h.2) (fun h => hsecond h.2)]
        simp [hfirst, hsecond]
  · rw [pixelOf_set_xor _ _ _ (by rwa [hl])]
    congr 1
    by_cases hfirst : y0 * 8 + x0 / 8 = fbIndex r c
    · rw [byteCovers_firstHalf hfirst hon.2 hc]
      simp [hfirst]
    · rw [byteCovers_eq_false hr hc (fun h => hfirst h.2) (fun h => htwo h.1)]
      simp [hfirst]
  · have off_screen : ¬ ((x0 % 8 ≠ 0 ∧ x0 / 8 + 1 < 8) ∧ y0 * 8 + x0 / 8 + 1 = fbIndex r c) := by
      rw [fbIndex, rowBytes_eq]
      omega
    rw [byteCovers_eq_false hr hc (fun h => hon h.1) off_screen, Bool.bne_false]

end

theorem pixelOf_blitRows (bs : List Byte) (x0 y0 : Nat) (fb : List Byte) (hl : fb.length = 256) {r c : Nat}
    (hr : r < 32) (hc : c < 64) :
    pixelOf (blitRows fb x0 y0 bs) r c = (pixelOf fb r c != rowsCover bs x0 y0 r c) := by
  induction bs generalizing fb y0 with
  | nil =>
    have : rowsCover [] x0 y0 r c = false := by simp [rowsCover]
    rw [blitRows, this, Bool.bne_false]
  | cons b bs ih =>
    rw [blitRows, ih _ _ (by rw [length_blitRow]; exact hl), pixelOf_blitRow hl hr hc, Bool.bne_assoc, rowsCover_cons]
    congr 1
    by_cases h : y0 = r
    · subst h
      have : rowsCover bs x0 (y0 + 1) y0 c = false := by simp [rowsCover]
      simp [byteCovers, this]
    · simp [byteCovers, h]

/-- Settles O54: the draw and the blit turn over the same pixels of the same framebuffer. -/
theorem drawEqualsTheByteLevelBlit : Obligations.DrawEqualsTheByteLevelBlit := by
  intro x y n s h
  refine ⟨_, exec_drw h, fun k hk => ?_, ?_⟩
  · rw [s.read_afterDraw_display x y n hk]
    refine getD_eq_of_pixels (fun r hr c hc => ?_) hk
    rw [State.drawn, Canvas.pixelOf_plotRows _ _ _ _ (length_framebuffer s) hr hc]
    exact (pixelOf_blitRows (s.sprite n) _ _ s.framebuffer (length_framebuffer s) hr hc).symm
  · rw [s.afterDraw_collides]
    constructor
    · rintro ⟨r, hr, c, hc, hcover, hset⟩
      have hbyte := getLsbD_display s (r * 8 + c / 8) (b := 7 - c % 8) (by omega)
      have hbyte' := getLsbD_display (s.afterDraw x y n) (r * 8 + c / 8) (b := 7 - c % 8) (by omega)
      rw [show (r * 8 + c / 8) / 8 = r by omega, show (r * 8 + c / 8) % 8 * 8 + (7 - (7 - c % 8)) = c by omega] at hbyte hbyte'
      refine ⟨r * 8 + c / 8, by omega, 7 - c % 8, by omega, hbyte.trans hset, ?_⟩
      rw [hbyte', s.screenPixel_afterDraw x y n hr hc, hset, hcover]
      rfl
    · rintro ⟨k, hk, b, hb, hset, hunset⟩
      rw [getLsbD_display _ k hb] at hset hunset
      rw [s.screenPixel_afterDraw x y n (by omega) (by omega), hset] at hunset
      exact ⟨_, by omega, _, by omega, by simpa using hunset, hset⟩

end Sys2Proof.Machine
end

section
/-! The range check of rule R42, over every access: not at all outside RAM, whole inside it. -/

namespace Sys2Proof.Machine

/-- The accesses at `I` that rule R221 turns away are those that are not in range. -/
theorem faultCodeOf_eq_seven_iff (s : State) (i : Instr) :
    faultCodeOf s i = some 7 ↔ 0 < dataBytes i ∧ 0xFFF < s.i.toNat + dataBytes i - 1 := by
  have access {n : Nat} (hrow : faultCodeOf s i = if inRange s.base n then none else some 7) :
      faultCodeOf s i = some 7 ↔ 0 < n ∧ 0xFFF < s.i.toNat + n - 1 := by
    rw [hrow, Option.ite_none_left_eq_some, inRange_iff, State.base]
    simp only [and_true]
    omega
  have other {p : Prop} [Decidable p] {code : BitVec 3} (hrow : faultCodeOf s i = if p then some code else none)
      (hcode : code ≠ 7) : faultCodeOf s i = some 7 ↔ 0 < 0 ∧ 0xFFF < s.i.toNat + 0 - 1 := by
    rw [hrow, Option.ite_none_right_eq_some]
    exact ⟨fun ⟨_, h⟩ => absurd (Option.some.inj h) hcode, fun ⟨h, _⟩ => absurd h (lt_irrefl 0)⟩
  cases i
  case drw x y n => exact access (faultCodeOf_drw s x y n)
  case stRegs x => exact access (faultCodeOf_stRegs s x)
  case ldRegs x => exact access (faultCodeOf_ldRegs s x)
  case ldB x => exact access (faultCodeOf_ldB s x)
  case call => exact other (ite_not ..).symm (by decide)
  case ret | ldF | skp | sknp => exact other rfl (by decide)
  all_goals exact other (p := False) (code := 0) rfl (by decide)

theorem exec_eq_haltedWith_iff {s : State} (hrun : s.run ≠ .halted) (i : Instr) (code : BitVec 3) :
    exec i s = .next (haltedWith s code (encode i)) ↔ faultCodeOf s i = some code := by
  refine ⟨fun h => ?_, exec_of_faults⟩
  rcases exec_cases i s with ⟨c, hc, e⟩ | ⟨-, e⟩
  · have same : haltedWith s c (encode i) = haltedWith s code (encode i) := Host.Outcome.next.inj (e.symm.trans h)
    rw [hc, show c = code from congrArg (·.err.code) same]
  · have same := Host.Outcome.next.inj (e.symm.trans h)
    exact absurd ((completed_run _ i s).symm.trans (congrArg (·.run) same)) hrun

/-- Settles O18, access by access. -/
theorem accessOutOfRangeDoesNotHappen : Obligations.AccessOutOfRangeDoesNotHappen := by
  refine ⟨fun addr n => ?_, fun s hrun => ⟨fun hpc => ?_, fun hstep => ?_⟩, fun i s hrun => ?_, fun s hrun hpc => ?_,
    fun x s h => ⟨⟨_, exec_stRegs h, s.store_run _ _, fun r hr => s.read_store_regRange hr⟩,
      ⟨_, exec_ldRegs h, s.loadRange_run x _, fun r hr => ?_⟩⟩,
    fun x s h => ⟨_, exec_ldB h, s.store_run _ _, fun k hk => s.read_store_decimalDigits _ hk⟩,
    fun x y n s h => ⟨_, exec_drw h, ?_, fun r hr c hc => s.screenPixel_afterDraw x y n hr hc⟩⟩
  · rw [inRange_iff]
    omega
  · exact stepBy_of_beyond exec hrun (by omega)
  · by_contra hpc
    have advanced := (pcAfterAStepIsAsTabled s _ hrun hstep).2.1 (by omega) rfl
    exact absurd advanced (Nat.ne_of_lt (Nat.lt_add_of_pos_right (by decide)))
  · rw [exec_eq_haltedWith_iff hrun, faultCodeOf_eq_seven_iff]
  · rcases hd : decode (fetchedWord s) with _ | i
    · exact stepBy_of_unknown exec hrun (by omega) hd
    · exact stepBy_of_decode exec hrun (by omega) hd
  · rw [State.reg_loadRange, if_pos hr, State.base]
  · rw [s.afterDraw_frame]

end Sys2Proof.Machine
end

section
/-! The delay timer over a run of steps (rule R153). -/

namespace Sys2Proof.Machine

/-- Settles O50, by induction along the run: after step `m` the timer holds the written value less `m`. -/
theorem timerReadAfterWriteCountsTheSteps : Obligations.TimerReadAfterWriteCountsTheSteps := by
  intro run j x y hj hsteps hwrite hquiet hread
  have tick (m : Nat) (hm : m ≤ j) := timersTickInEveryStep (run m) (run (m + 1)) (hsteps m hm).1 (hsteps m hm).2.1
    (hsteps m hm).2.2
  have counts (m : Nat) (hm : m + 1 ≤ j) : (run (m + 1)).dt.toNat = ((run 0).reg x).toNat - m := by
    induction m with
    | zero =>
      obtain ⟨-, -, -, hdt, -⟩ := tick 0 (Nat.zero_le j)
      rw [hdt x hwrite, Nat.sub_zero]
    | succ m ih =>
      obtain ⟨hdt, -⟩ := tick (m + 1) (by omega)
      rw [hdt (hquiet (m + 1) (by omega) (by omega)), ih (by omega)]
      omega
  obtain ⟨m, rfl⟩ := Nat.exists_eq_add_of_le' hj
  obtain ⟨-, -, hreg, -⟩ := tick (m + 1) le_rfl
  rw [hreg y hread, counts m le_rfl]
  omega

end Sys2Proof.Machine
end

section
/-! Register copies, logic, subtraction and shifts (rules R94 to R102), and the random byte (rule R170): each is one register
write, or a result and then a flag. -/

namespace Sys2Proof.Machine

/-- Settles O31. -/
theorem copyRegisterSetsVxOnly : Obligations.CopyRegisterSetsVxOnly := fun x y s =>
  ⟨_, exec_of_completes rfl, s.setReg_frame x _, s.reg_setReg_self x _, fun _ hr => s.reg_setReg_of_ne hr _⟩

/-- Settles O32: the bitwise operation is on the bytes, and no flag is written. -/
theorem logicalInstructionsActBitwise : Obligations.LogicalInstructionsActBitwise := by
  intro x y s
  refine ⟨⟨_, exec_of_completes rfl, s.setReg_frame x _, fun k _ => ?_, fun _ hr => s.reg_setReg_of_ne hr _⟩,
    ⟨_, exec_of_completes rfl, s.setReg_frame x _, fun k _ => ?_, fun _ hr => s.reg_setReg_of_ne hr _⟩,
    ⟨_, exec_of_completes rfl, s.setReg_frame x _, fun k _ => ?_, fun _ hr => s.reg_setReg_of_ne hr _⟩⟩
  · exact (congrArg (·.getLsbD k) (s.reg_setReg_self x _)).trans BitVec.getLsbD_or
  · exact (congrArg (·.getLsbD k) (s.reg_setReg_self x _)).trans BitVec.getLsbD_and
  · exact (congrArg (·.getLsbD k) (s.reg_setReg_self x _)).trans BitVec.getLsbD_xor

/-- The flag of a subtraction (rules R99, R101). -/
theorem noBorrowFlag_eq (a b : Byte) : noBorrowFlag a b = if b.toNat ≤ a.toNat then 1 else 0 := by
  simp [noBorrowFlag, flagByte]

/-- The result of a subtraction: the difference, plus 256 on a borrow (rule R99). -/
theorem trunc8_sub_toNat (a b : Byte) : (trunc8 (a.toNat + 256 - b.toNat)).toNat =
    if b.toNat ≤ a.toNat then a.toNat - b.toNat else a.toNat + 256 - b.toNat := by
  have ha := a.isLt
  have hb := b.isLt
  rw [trunc8_toNat]
  split <;> omega

/-- Settles O34. -/
theorem subtractionsSetNoBorrow : Obligations.SubtractionsSetNoBorrow := by
  intro x y s
  refine ⟨⟨_, exec_of_completes rfl, s.setResultAndFlag_frame x _ _, ?_, fun hx => ?_,
      fun _ hr hf => s.reg_setResultAndFlag_of_ne hr hf _ _⟩,
    ⟨_, exec_of_completes rfl, s.setResultAndFlag_frame x _ _, ?_, fun hx => ?_,
      fun _ hr hf => s.reg_setResultAndFlag_of_ne hr hf _ _⟩⟩
  · exact (s.reg_setResultAndFlag_vf x _ _).trans (noBorrowFlag_eq _ _)
  · exact (congrArg BitVec.toNat (s.reg_setResultAndFlag_result hx _ _)).trans (trunc8_sub_toNat _ _)
  · exact (s.reg_setResultAndFlag_vf x _ _).trans (noBorrowFlag_eq _ _)
  · exact (congrArg BitVec.toNat (s.reg_setResultAndFlag_result hx _ _)).trans (trunc8_sub_toNat _ _)

/-- Which register a shift reads (rules R100, R102). -/
theorem State.shiftOperand_eq (s : State) {src : Config.ShiftSource} {x y z : Nibble}
    (h : src = .vx ∧ z = x ∨ src = .vy ∧ z = y) : s.shiftOperand src x y = s.reg z := by
  rcases h with ⟨rfl, rfl⟩ | ⟨rfl, rfl⟩ <;> rfl

/-- Settles O35: for either source the shift is a result and a flag of the operand. -/
theorem shiftsMoveOneBit : Obligations.ShiftsMoveOneBit := by
  intro x y s
  refine ⟨exec_of_completes rfl, exec_of_completes rfl, fun src z hz => ?_⟩
  have hb := (s.reg z).isLt
  simp only [shiftRight, shiftLeft, s.shiftOperand_eq hz]
  refine ⟨⟨_, rfl, s.setResultAndFlag_frame x _ _, ?_, fun hx => ?_,
      fun _ hr hf => s.reg_setResultAndFlag_of_ne hr hf _ _⟩,
    ⟨_, rfl, s.setResultAndFlag_frame x _ _, ?_, fun hx => ?_,
      fun _ hr hf => s.reg_setResultAndFlag_of_ne hr hf _ _⟩⟩
  · exact s.reg_setResultAndFlag_vf x _ _
  · rw [s.reg_setResultAndFlag_result hx, trunc8_toNat]
    omega
  · exact s.reg_setResultAndFlag_vf x _ _
  · rw [s.reg_setResultAndFlag_result hx, trunc8_toNat]

/-- Settles O52. -/
theorem randomByteIsMasked : Obligations.RandomByteIsMasked := fun x kk s =>
  ⟨fun rnd => ⟨_, execWith_rnd rnd x kk s, s.setReg_frame x _, s.reg_setReg_self x _, fun _ hr => s.reg_setReg_of_ne hr _⟩,
    ⟨_, exec_rnd x kk s, rfl, s.reg_setReg_self x _, fun _ hr => s.reg_setReg_of_ne hr _⟩⟩

end Sys2Proof.Machine
end

section
/-! Jumps, calls and skips (rules R111 to R118, R160 to R162). -/

namespace Sys2Proof.Machine

/-- Settles O37. -/
theorem jumpWithOffsetAddsV0 : Obligations.JumpWithOffsetAddsV0 := fun nnn s =>
  ⟨_, exec_of_completes rfl, s.setPc_frame _, jpV0_target_toNat nnn (s.reg 0)⟩

theorem exec_call {nnn : Addr} {s : State} (h : s.stack.length < 16) :
    exec (.call nnn) s = .next ((s.push s.pc).setPc (zextAddr nnn)) := exec_of_completes (if_pos h)

/-- Settles O38. -/
theorem callPushesTheReturnAddress : Obligations.CallPushesTheReturnAddress :=
  ⟨fun nnn s h => ⟨_, exec_call h, rfl, zextAddr_toNat nnn⟩,
    fun nnn s h => exec_of_faults (if_neg (by omega))⟩

/-- Settles O39. -/
theorem returnPopsTheNewestAddress : Obligations.ReturnPopsTheNewestAddress := by
  refine ⟨fun s older a hs => ?_, fun s hs => exec_of_faults (if_pos (by simp [hs]))⟩
  rw [exec_of_completes (i := .ret) (s := s) (if_neg (by simp [hs])), completed]
  simp [State.setPc, State.dropNewest, hs]

/-- Settles O40: the return pops what the call pushed. -/
theorem returnUndoesCall : Obligations.ReturnUndoesCall := by
  intro nnn s h
  refine ⟨_, exec_call h, by simp, ?_⟩
  exact returnPopsTheNewestAddress.1 ((s.push s.pc).setPc (zextAddr nnn)) s.stack s.pc rfl

/-- A completed skip (rule R110), for a condition `p` that the table of skips tests. -/
theorem exec_skip {i : Instr} {s : State} {p : Prop} [Decidable p] (hfault : faultCodeOf s i = none)
    (hi : completed 0 i s = s.setPc (if skips s i then s.pc + 2 else s.pc)) (hp : skips s i = true ↔ p)
    (hrnd : ∀ x kk, i ≠ .rnd x kk := by nofun) :
    exec i s = .next { s with pc := if p then s.pc + 2 else s.pc } := by
  rw [exec_of_completes hfault hrnd, hi, State.setPc, if_congr hp rfl rfl]

/-- Settles O41. -/
theorem conditionalSkips : Obligations.ConditionalSkips := fun _ _ _ _ =>
  ⟨exec_skip rfl rfl beq_iff_eq, exec_skip rfl rfl bne_iff_ne, exec_skip rfl rfl beq_iff_eq, exec_skip rfl rfl bne_iff_ne⟩

/-- The key flag a skip tests, where `Vx` selects one (rule R160). -/
theorem State.getElem?_key {s : State} {x k : Nibble} (h : (s.reg x).toNat = k.toNat) :
    s.key[(s.reg x).toNat]? = some (s.keyAt k) := by
  rw [h, Vector.getElem?_eq_getElem k.isLt, State.keyAt]

/-- Settles O51. -/
theorem keySkips : Obligations.KeySkips := by
  refine ⟨fun x k s h => ⟨?_, ?_⟩, fun x s h => ⟨exec_of_faults (if_pos h), exec_of_faults (if_pos h)⟩⟩
  all_goals
    have hk := k.isLt
    have hfault : ¬ 15 < (s.reg x).toNat := by omega
  · exact exec_skip (if_neg hfault) rfl (by rw [skips, s.getElem?_key h, Option.getD_some])
  · exact exec_skip (if_neg hfault) rfl (by rw [skips, s.getElem?_key h, Option.getD_some, Bool.not_eq_true'])

end Sys2Proof.Machine
end

section
/-! The index register (rules R132, R136). -/

namespace Sys2Proof.Machine

/-- Settles O43. -/
theorem addToIndexWrapsAtSixteenBits : Obligations.AddToIndexWrapsAtSixteenBits := fun x s =>
  ⟨_, exec_of_completes rfl, s.setI_frame _, trunc16_toNat _⟩

theorem glyphAddress_toNat {d : Nat} (h : d < 16) : (glyphAddress d).toNat = 5 * d := by
  rw [glyphAddress, BitVec.toNat_ofNat, Config.fontBase, Config.glyphBytes, Nat.zero_add, Nat.mod_eq_of_lt (by omega)]

/-- Settles O48. -/
theorem fontGlyphAddress : Obligations.FontGlyphAddress :=
  ⟨fun x s h => ⟨_, exec_of_completes (if_neg (Nat.not_le.mpr h)), s.setI_frame _, glyphAddress_toNat h⟩,
    fun x s h => exec_of_faults (if_pos h)⟩

end Sys2Proof.Machine
end
